-- ==== Sys2Proof/Word.lean ====
section
/-! DEFINITION. The widths of the spec (00_scope.md R5: W_WORD, W_NIBBLE, W_PAR_VALUE, W_PAIR; 30_encoding.md R60, R61). -/

namespace Sys2Proof

/-- `W_NIBBLE`: a Hamming(8,4) value (R5). -/
abbrev Nibble := BitVec 4

/-- `W_WORD`: a code-word, parity word or biased-BCD word (R5). -/
abbrev Byte := BitVec 8

/-- `W_PAR_VALUE` and `W_BCD_VALUE_IN`: a parity payload or a BCD.ENC operand (R5). -/
abbrev Payload := BitVec 7

/-- `W_PAIR`: two code-words, the low nibble's in bits 7:0 (R5, R45). -/
abbrev PairWord := BitVec 16

/-- The request word `req` of the CORE wrapper (R60). -/
abbrev ReqWord := BitVec 20

/-- The response word `rsp` of the CORE wrapper (R61). -/
abbrev RspWord := BitVec 16

end Sys2Proof
end

