-- ==== Sys2Proof/Machine/Bits.lean ====
section
/-! DEFINITION. The functions on bit vectors of 00_scope.md R9 and the fields of the request word (30_encoding.md R60). -/

namespace Sys2Proof

/-- `popcount(v)`: the number of bits of `v` that are 1 (R9). -/
def popcount {n : Nat} (v : BitVec n) : Nat := (List.range n).countP v.getLsbD

/-- `odd(v)`: true when `v` has an odd number of 1 bits (R9). -/
def odd {n : Nat} (v : BitVec n) : Bool := popcount v % 2 == 1

/-- `hd(a, b)`: the Hamming distance (R9). -/
def hd {n : Nat} (a b : BitVec n) : Nat := popcount (a ^^^ b)

/-- `v` with bit `i` flipped, `v ^ (1 << i)` of the rules. -/
def flipBit {n : Nat} (v : BitVec n) (i : Nat) : BitVec n := v ^^^ (1#n <<< i)

/-- The field `op = req[19:16]` (R60). -/
def reqOp (w : ReqWord) : BitVec 4 := w.extractLsb' 16 4

/-- The field `a = req[15:0]` (R60). -/
def reqArg (w : ReqWord) : BitVec 16 := w.extractLsb' 0 16

/-- The request word with the given fields: `op ++ a` (R60). -/
def mkReq (op : BitVec 4) (a : BitVec 16) : ReqWord := op ++ a

/-- The low-order slice of `k` bits of `a`, the operand of an operation (R63). -/
def operandSlice (k : Nat) (a : BitVec 16) : BitVec k := a.extractLsb' 0 k

/-- The low nibble `b[3:0]` of a byte (glossary "Nibble"). -/
def lowNibble (b : Byte) : Nibble := b.extractLsb' 0 4

/-- The high nibble `b[7:4]` of a byte (glossary "Nibble"). -/
def highNibble (b : Byte) : Nibble := b.extractLsb' 4 4

end Sys2Proof
end

