-- ==== Sys2Proof/Syntax.lean ====
section
/-! DEFINITION. The eleven operations (30_encoding.md R62), the eleven sequence pseudo-operations (R68) and the result classes (60_exceptions.md R151). -/

namespace Sys2Proof

/-- One operation with its operand, at exactly the width of the unit's input port (10_state.md R22; 30_encoding.md
R62, R63). One constructor per row of spec/opcode_table.json. -/
inductive Instr where
  /-- PAR.ENC (R82). -/
  | parEnc (v : Payload)
  /-- PAR.DEC (R83). -/
  | parDec (w : Byte)
  /-- PAR.CHK (R84). -/
  | parChk (w : Byte)
  /-- H84.ENC (R96). -/
  | h84Enc (n : Nibble)
  /-- H84.DEC (R98). -/
  | h84Dec (w : Byte)
  /-- H84.SYN (R100). -/
  | h84Syn (w : Byte)
  /-- H168.ENC (R111). -/
  | h168Enc (b : Byte)
  /-- H168.DEC (R112). -/
  | h168Dec (p : PairWord)
  /-- H168.SYN (R113). -/
  | h168Syn (p : PairWord)
  /-- BCD.ENC (R122). -/
  | bcdEnc (v : Payload)
  /-- BCD.DEC (R123). -/
  | bcdDec (w : Byte)
  deriving DecidableEq, Repr

/-- A sequence ("batch") pseudo-operation with its operand sequence (R68; 46_batch.md R140 to R144). They have no
encoding: the host performs them. -/
inductive SeqOp where
  | parEnc (xs : List Payload)
  | parDec (xs : List Byte)
  | parChk (xs : List Byte)
  | h84Enc (xs : List Nibble)
  | h84Dec (xs : List Byte)
  | h84Syn (xs : List Byte)
  | h168Enc (xs : List Byte)
  /-- H168.DEC.SEQ: an interleaved sequence of code-words (R143). -/
  | h168Dec (ws : List Byte)
  /-- H168.SYN.SEQ: an interleaved sequence of code-words (R144). -/
  | h168Syn (ws : List Byte)
  | bcdEnc (xs : List Payload)
  | bcdDec (xs : List Byte)
  deriving DecidableEq, Repr

/-- The three result classes of H84.SYN and H168.SYN (R151). There is no fourth (93_implementation_defined.md U8). -/
inductive WordClass where
  | valid
  | corrected
  | uncorrectable
  deriving DecidableEq, Repr

end Sys2Proof
end

