-- ==== Sys2Proof/Decode.lean ====
section
/-! DEFINITION. The request encoding (30_encoding.md R60 to R67): the operation map, the decoder, total and rejecting by name, and the encoder. -/

namespace Sys2Proof

/-- Why a request word selects no operation. -/
inductive DecodeReject where
  /-- The op code is 0xB to 0xF, reserved (R65). -/
  | reservedOp (op : BitVec 4)
  deriving DecidableEq, Repr

/-- Why a number of any size is no request for an operation. -/
inductive NumberReject where
  /-- The number needs more than the 20 bits of a request (R66). -/
  | notTwentyBits (w : Nat)
  /-- It is a request word, and that selects no operation. -/
  | noOperation (r : DecodeReject)
  deriving DecidableEq, Repr

/-- The op code of an operation (R62). -/
def Instr.opcode : Instr → BitVec 4
  | .parEnc _ => 0x0
  | .parDec _ => 0x1
  | .parChk _ => 0x2
  | .h84Enc _ => 0x3
  | .h84Dec _ => 0x4
  | .h84Syn _ => 0x5
  | .h168Enc _ => 0x6
  | .h168Dec _ => 0x7
  | .h168Syn _ => 0x8
  | .bcdEnc _ => 0x9
  | .bcdDec _ => 0xA

/-- Whether an op code is assigned an operation (R62, R65). -/
def opDefined (op : BitVec 4) : Bool := decide (op.toNat ≤ 0xA)

/-- The operation a request word selects, with its operand slice (R62, R63), or the reserved op code (R65). -/
def decode (w : ReqWord) : Except DecodeReject Instr :=
  let a := reqArg w
  match (reqOp w).toNat with
  | 0x0 => .ok (.parEnc (operandSlice 7 a))
  | 0x1 => .ok (.parDec (operandSlice 8 a))
  | 0x2 => .ok (.parChk (operandSlice 8 a))
  | 0x3 => .ok (.h84Enc (operandSlice 4 a))
  | 0x4 => .ok (.h84Dec (operandSlice 8 a))
  | 0x5 => .ok (.h84Syn (operandSlice 8 a))
  | 0x6 => .ok (.h168Enc (operandSlice 8 a))
  | 0x7 => .ok (.h168Dec (operandSlice 16 a))
  | 0x8 => .ok (.h168Syn (operandSlice 16 a))
  | 0x9 => .ok (.bcdEnc (operandSlice 7 a))
  | 0xA => .ok (.bcdDec (operandSlice 8 a))
  | _ => .error (.reservedOp (reqOp w))

/-- Decoding of any number: a request is exactly 20 bits (R66), so a larger number is rejected (assumption 14). -/
def decodeNat (w : Nat) : Except NumberReject Instr :=
  if w < 2 ^ 20 then (decode (BitVec.ofNat 20 w)).mapError .noOperation else .error (.notTwentyBits w)

/-- The operand of an operation as the field `a`, the ignored bits zero (R62, R63). -/
def Instr.operand : Instr → BitVec 16
  | .parEnc v => v.setWidth 16
  | .parDec w => w.setWidth 16
  | .parChk w => w.setWidth 16
  | .h84Enc n => n.setWidth 16
  | .h84Dec w => w.setWidth 16
  | .h84Syn w => w.setWidth 16
  | .h168Enc b => b.setWidth 16
  | .h168Dec p => p
  | .h168Syn p => p
  | .bcdEnc v => v.setWidth 16
  | .bcdDec w => w.setWidth 16

/-- The request word of an operation, the ignored bits zero (R60, R62). -/
def encode (i : Instr) : ReqWord := mkReq i.opcode i.operand

/-- The bits of the request word that an operation reads: `op`, and the bits marked `a` in the row's `encoding` string (R62). -/
def Instr.usedMask : Instr → ReqWord
  | .parEnc _ => 0xF007F
  | .parDec _ => 0xF00FF
  | .parChk _ => 0xF00FF
  | .h84Enc _ => 0xF000F
  | .h84Dec _ => 0xF00FF
  | .h84Syn _ => 0xF00FF
  | .h168Enc _ => 0xF00FF
  | .h168Dec _ => 0xFFFFF
  | .h168Syn _ => 0xFFFFF
  | .bcdEnc _ => 0xF007F
  | .bcdDec _ => 0xF00FF

/-- One row of the operation map (R62; spec/opcode_table.json): `match` and `mask` over `req`. -/
structure OpcodeRow where
  mnemonic : String
  pattern  : ReqWord
  mask     : ReqWord
  deriving DecidableEq, Repr

/-- The operation map (R62), in the table's order. -/
def opcodeRows : List OpcodeRow :=
  [⟨"PAR.ENC", 0x00000, 0xF0000⟩, ⟨"PAR.DEC", 0x10000, 0xF0000⟩, ⟨"PAR.CHK", 0x20000, 0xF0000⟩,
   ⟨"H84.ENC", 0x30000, 0xF0000⟩, ⟨"H84.DEC", 0x40000, 0xF0000⟩, ⟨"H84.SYN", 0x50000, 0xF0000⟩,
   ⟨"H168.ENC", 0x60000, 0xF0000⟩, ⟨"H168.DEC", 0x70000, 0xF0000⟩, ⟨"H168.SYN", 0x80000, 0xF0000⟩,
   ⟨"BCD.ENC", 0x90000, 0xF0000⟩, ⟨"BCD.DEC", 0xA0000, 0xF0000⟩]

/-- Whether a request word falls under a row. -/
def OpcodeRow.covers (r : OpcodeRow) (w : ReqWord) : Bool := w &&& r.mask == r.pattern

/-- The mnemonic of an operation (R62, R67). -/
def Instr.mnemonic : Instr → String
  | .parEnc _ => "PAR.ENC"
  | .parDec _ => "PAR.DEC"
  | .parChk _ => "PAR.CHK"
  | .h84Enc _ => "H84.ENC"
  | .h84Dec _ => "H84.DEC"
  | .h84Syn _ => "H84.SYN"
  | .h168Enc _ => "H168.ENC"
  | .h168Dec _ => "H168.DEC"
  | .h168Syn _ => "H168.SYN"
  | .bcdEnc _ => "BCD.ENC"
  | .bcdDec _ => "BCD.DEC"

/-- The source's own name for an operation, accepted as an alias of its mnemonic (R67). The two functions of the
Hamming(16,8) coder are told from other `encode` and `decode` functions by their argument names; H168.SYN has none. -/
def Instr.sourceName : Instr → Option String
  | .parEnc _ => some "parity_encode"
  | .parDec _ => some "parity_decode"
  | .parChk _ => some "has_error"
  | .h84Enc _ => some "hamming8_encode"
  | .h84Dec _ => some "hamming8_decode"
  | .h84Syn _ => some "classify"
  | .h168Enc _ => some "encode(byte)"
  | .h168Dec _ => some "decode(pair)"
  | .h168Syn _ => none
  | .bcdEnc _ => some "bcd_encode"
  | .bcdDec _ => some "bcd_decode"

/-- The instruction the decoder reads from the `nbits` low bits of `w`, numbered as spec/opcode_table.json numbers them
(bit 0 of `req` is bit 0 of `w`). -/
def decodeTableWord (nbits w : Nat) : Option Instr := (decodeNat (w % 2 ^ nbits)).toOption

end Sys2Proof
end

