-- ==== Sys2Proof/Machine/Parameters.lean ====
section
/-! DEFINITION. The values this hardware takes for the parameters of 00_scope.md R5. -/

namespace Sys2Proof.Machine

/-- `H84_ENC_TABLE` (R5, R26, R92), index 0 first.
PRESUMED: entry 0 is the source's, entries 1 to 15 are the spec's from general knowledge of the teletext code
(93_implementation_defined.md G1 to G3); assumption 9. Unsafe. -/
def h84EncTableValue : Vector Byte 16 :=
  #v[0x15, 0x02, 0x49, 0x5E, 0x64, 0x73, 0x38, 0x2F, 0xD0, 0xC7, 0x8C, 0x9B, 0xA1, 0xB6, 0xFD, 0xEA]

/-- `H84_SENTINEL`: what H84.DEC gives for an Uncorrectable word (R5, R98). -/
def h84SentinelValue : Nibble := 0xF

/-- `BCD_DEC_BIAS`, decimal eleven (R5, R123). -/
def bcdDecBiasValue : Nat := 11

/-- `BCD_ENC_BIAS`, 17 = 0x11 (R5, R122; 90_conflicts.md C2).
DEDUCED: the source prints 11, the spec corrects it by the required round trip; assumption 10. Unsafe. -/
def bcdEncBiasValue : Nat := 17

end Sys2Proof.Machine
end

