-- ==== Sys2Proof/Config.lean ====
section
/-! DEFINITION. The configuration of 00_scope.md R5 and the properties the spec requires of it (42_hamming84.md R93, 44_bcd.md R124 item 1). -/

namespace Sys2Proof

/-- A 16-entry Hamming(8,4) encode table (R26; R93 property 1). -/
abbrev H84Table := Vector Byte 16

/-- `H84_ENC[n]`: the code-word of the nibble `n` (R26). The index width is log2 of the length, so no read can fail (R24). -/
def H84Table.entry (T : H84Table) (n : Nibble) : Byte := T[n.toNat]'n.isLt

/-- `D4 D3 D2 D1`: the data bits of a code-word, at its odd bit positions, read as a nibble (R90, R95). -/
def dataBits (w : Byte) : Nibble :=
  BitVec.ofBool (w.getLsbD 7) ++ BitVec.ofBool (w.getLsbD 5) ++ BitVec.ofBool (w.getLsbD 3) ++ BitVec.ofBool (w.getLsbD 1)

/-- R93 properties 4 and 5 (and with 5, property 6): odd total weight, and any two distinct entries at distance 4 or more. -/
abbrev H84Table.Secded (T : H84Table) : Prop :=
  (∀ n : Nibble, odd (T.entry n) = true) ∧ ∀ m n : Nibble, m ≠ n → 4 ≤ hd (T.entry m) (T.entry n)

/-- R93: what any value of `H84_ENC_TABLE` must satisfy. Property 1 is the type, property 6 follows from 5. -/
abbrev H84Table.Good (T : H84Table) : Prop :=
  T.entry 0 = 0x15 ∧ (∀ n : Nibble, dataBits (T.entry n) = n) ∧ T.Secded

/-- The implementation parameters that are values (R5); the widths are types. -/
structure Config where
  h84EncTable : H84Table
  h84Sentinel : Nibble
  bcdDecBias  : Nat
  bcdEncBias  : Nat
  deriving DecidableEq, Repr

/-- This hardware's parameters (R5). -/
def Config.hw : Config where
  h84EncTable := Machine.h84EncTableValue
  h84Sentinel := Machine.h84SentinelValue
  bcdDecBias  := Machine.bcdDecBiasValue
  bcdEncBias  := Machine.bcdEncBiasValue

end Sys2Proof
end

