-- ==== Sys2Proof/Machine/State.lean ====
section
/-! DEFINITION. State: the levels on the input ports of the block (10_state.md R22, R32) and the host's side of a run (70_reset_and_hazards.md R176); the block itself has no state (R33). Also the reasons a step can stop. -/

namespace Sys2Proof.Machine

/-- The failures the spec names. No step ends in one: the failure is returned to the host as the outcome of a sequence
pseudo-operation and any action may follow (60_exceptions.md R156, R157; assumption 6). -/
inductive Fault where
  /-- `InvalidInputLength(k)`: given by H168.DEC.SEQ and H168.SYN.SEQ for an operand sequence of odd length `k`, and by
  nothing else (R153). Safe: the outcome holds no result element. -/
  | invalidInputLength (k : Nat)
  deriving DecidableEq, Repr

/-- Why the model gives a request no meaning. -/
inductive Refusal where
  /-- Raised by an arm of `exec` whose instruction has no meaning yet; no arm is left that raises it. Safe. -/
  | notModelled (mnemonic : String)
  /-- Raised when the wrapper's `rsp` is read under a reserved op code, 0xB to 0xF: "A model refuses a request with a
  reserved `op`" (30_encoding.md R65; 93_implementation_defined.md U7). Safe. -/
  | reservedOp (op : BitVec 4)
  deriving DecidableEq, Repr

/-- The levels the host drives on the nine input ports of the units (R22). -/
structure UnitInputs where
  /-- `parity_checker.enc_value`. -/
  encValue : Payload
  /-- `parity_checker.word`, feeding PAR.DEC and PAR.CHK. -/
  parWord  : Byte
  /-- `hamming_84_encoder.nibble`. -/
  nibble   : Nibble
  /-- `hamming_84_decoder.cw`. -/
  decCw    : Byte
  /-- `hamming_84_syndrome.cw`. -/
  synCw    : Byte
  /-- `hamming_168_codec.enc_byte`. -/
  encByte  : Byte
  /-- `hamming_168_codec.dec_pair`, feeding H168.DEC and H168.SYN. -/
  decPair  : PairWord
  /-- `bcd_encoder.value`. -/
  bcdValue : Payload
  /-- `bcd_decoder.word`. -/
  bcdWord  : Byte
  deriving DecidableEq, Repr

/-- A value for one input port of a unit (R22). -/
inductive Drive where
  | encValue (v : Payload)
  | parWord (w : Byte)
  | nibble (n : Nibble)
  | decCw (w : Byte)
  | synCw (w : Byte)
  | encByte (b : Byte)
  | decPair (p : PairWord)
  | bcdValue (v : Payload)
  | bcdWord (w : Byte)
  deriving DecidableEq, Repr

/-- The eleven output ports of the units (R22). -/
inductive OutPort where
  | encWord | decValue | hasError | cw | nibble | synClass | encPair | decByte | decClass | bcdWord | bcdValue
  deriving DecidableEq, Repr

/-- What an output port of a unit carries, at its own width (R22). The two class ports carry a `WordClass`; its two bits are
`classBits` (92_eei_decisions.md D4). -/
inductive Output where
  | encWord (w : Byte)
  | decValue (v : Payload)
  | hasError (e : BitVec 1)
  | cw (w : Byte)
  | nibble (n : Nibble)
  | synClass (c : WordClass)
  | encPair (p : PairWord)
  | decByte (b : Byte)
  | decClass (c : WordClass)
  | bcdWord (w : Byte)
  /-- Two's complement. -/
  | bcdValue (v : BitVec 9)
  deriving DecidableEq, Repr

/-- The result sequence of a sequence pseudo-operation (46_batch.md R141 to R144). -/
inductive SeqResult where
  | words (xs : List Byte)
  | payloads (xs : List Payload)
  | bits (xs : List (BitVec 1))
  | nibbles (xs : List Nibble)
  | classes (xs : List WordClass)
  /-- 9-bit two's-complement values, of BCD.DEC.SEQ. -/
  | values (xs : List (BitVec 9))
  deriving DecidableEq, Repr

/-- What a sequence pseudo-operation returns: a result sequence, or the failure in its place (60_exceptions.md R153). -/
inductive SeqOutcome where
  | done (r : SeqResult)
  | failed (f : Fault)
  deriving DecidableEq, Repr

/-- One thing the host does (60_exceptions.md R160). -/
inductive Action where
  /-- Issue a request to the wrapper: put the word on `req` and take the response from `rsp` (R33). -/
  | request (w : ReqWord)
  /-- Drive `req` without reading. -/
  | driveReq (w : ReqWord)
  /-- Read `rsp` for the level on `req`. -/
  | readRsp
  /-- Present the operand of `i` to the unit that performs it and receive the result, in one step (R33). -/
  | present (i : Instr)
  /-- Drive one input port of a unit used directly (R32). -/
  | drive (d : Drive)
  /-- Read one output port of a unit used directly (R32). -/
  | read (o : OutPort)
  /-- Perform a sequence pseudo-operation (R68). -/
  | sequence (q : SeqOp)
  deriving DecidableEq, Repr

/-- One response the host has received, beside what it asked (R176). -/
inductive Exchange where
  /-- The wrapper's `rsp` for `req`. -/
  | wrapper (req : ReqWord) (rsp : RspWord)
  /-- What a unit's output port carried: `i` is the operation the port performs, with the level on its input port. -/
  | unit (i : Instr) (out : Output)
  /-- What a sequence pseudo-operation returned. -/
  | sequence (q : SeqOp) (r : SeqOutcome)
  deriving DecidableEq, Repr

/-- The levels on the input ports, and the host's side of the run. The hardware adds no state of its own (R33). -/
structure State where
  /-- The level on the wrapper's input port `req` (R32). -/
  req    : ReqWord
  /-- The levels on the units' input ports (R22). -/
  inputs : UnitInputs
  /-- What the host does next, in order: the model's own field (assumptions 1 and 2). -/
  script : List Action
  /-- The responses received, oldest first: the model's own field (assumption 1). -/
  log    : List Exchange
  deriving DecidableEq, Repr

/-- Power-up: nothing is asked and nothing has been answered. There is no reset input and no value of the block depends on
history (R31).
DESIGN CHOICE: every input port is at level 0, since the host, not the spec, decides it; assumption 3. Unsafe. -/
def State.reset : State where
  req    := 0
  inputs := ⟨0, 0, 0, 0, 0, 0, 0, 0, 0⟩
  script := []
  log    := []

end Sys2Proof.Machine
end

