-- ==== Sys2Proof/Machine/Operands.lean ====
section
/-! DEFINITION. Operand and result forms: the halves of a pair (20_memory.md R45, 43_hamming168.md R110), the bits of a class (60_exceptions.md R151) and the extension of results (30_encoding.md R64). The operand slices (R63) are Machine/Bits.lean's, taken by the decoder. -/

namespace Sys2Proof.Machine

/-- `pair[0]`, the low nibble's code-word, bits 7:0 (R45). -/
def pairLo (p : PairWord) : Byte := p.extractLsb' 0 8

/-- `pair[1]`, the high nibble's code-word, bits 15:8 (R45). -/
def pairHi (p : PairWord) : Byte := p.extractLsb' 8 8

/-- The pair with the given `pair[0]` and `pair[1]` (R45). -/
def mkPair (lo hi : Byte) : PairWord := hi ++ lo

/-- The two bits of a class: bit 0 the correctable-error mask, bit 1 the uncorrectable-error mask (R100, R151). -/
def classBits : WordClass → BitVec 2
  | .valid => 0b00
  | .corrected => 0b01
  | .uncorrectable => 0b10

/-- The class a two-bit value stands for; 0b11 stands for none (R151; 93_implementation_defined.md U8). -/
def classOfBits (b : BitVec 2) : Option WordClass :=
  match b.toNat with
  | 0 => some .valid
  | 1 => some .corrected
  | 2 => some .uncorrectable
  | _ => none

/-- `zext_16` of the rules (00_scope.md R7). -/
def zext16 {n : Nat} (v : BitVec n) : RspWord := v.setWidth 16

/-- `sext_16` of the rules (00_scope.md R7). -/
def sext16 {n : Nat} (v : BitVec n) : RspWord := v.signExtend 16

/-- The response word for a unit's result: `zext_16`, for BCD.DEC `sext_16` (R64). -/
def responseWord : Output → RspWord
  | .encWord w => zext16 w
  | .decValue v => zext16 v
  | .hasError e => zext16 e
  | .cw w => zext16 w
  | .nibble n => zext16 n
  | .synClass c => zext16 (classBits c)
  | .encPair p => zext16 p
  | .decByte b => zext16 b
  | .decClass c => zext16 (classBits c)
  | .bcdWord w => zext16 w
  | .bcdValue v => sext16 v

end Sys2Proof.Machine
end

