-- ==== Sys2Proof/Machine/Ops.lean ====
section
/-! DEFINITION. The named operations over State: driving ports, recording a response, answering a request. There is no memory, no register and no exception to take: no trap entry and no return exists (60_exceptions.md R156, R157), and the one failure is recorded like any other outcome. -/

namespace Sys2Proof.Machine

/-- The host drives `req` (10_state.md R32). -/
def State.setReq (s : State) (w : ReqWord) : State := { s with req := w }

/-- The actions left to the host. -/
def State.setScript (s : State) (l : List Action) : State := { s with script := l }

/-- The host receives a response: it is recorded as the newest (70_reset_and_hazards.md R176). -/
def State.record (s : State) (e : Exchange) : State := { s with log := s.log ++ [e] }

/-- One input port of a unit takes a new level, the others keep theirs (10_state.md R22). -/
def UnitInputs.drive (u : UnitInputs) : Drive → UnitInputs
  | .encValue v => { u with encValue := v }
  | .parWord w => { u with parWord := w }
  | .nibble n => { u with nibble := n }
  | .decCw w => { u with decCw := w }
  | .synCw w => { u with synCw := w }
  | .encByte b => { u with encByte := b }
  | .decPair p => { u with decPair := p }
  | .bcdValue v => { u with bcdValue := v }
  | .bcdWord w => { u with bcdWord := w }

/-- The host drives one input port of a unit (60_exceptions.md R160). -/
def State.drive (s : State) (d : Drive) : State := { s with inputs := s.inputs.drive d }

/-- The wrapper answers the request on `req` with a unit's result, extended to 16 bits; the state of the block before and
after is the same (10_state.md R33; 30_encoding.md R64, R69). -/
def respond (o : Output) (s : State) : Host.Outcome State Fault Refusal :=
  .next (s.record (.wrapper s.req (responseWord o)))

end Sys2Proof.Machine
end

