-- ==== Sys2Proof/Machine/Bcd.lean ====
section
/-! DEFINITION. The units `bcd_encoder` and `bcd_decoder`: BCD.ENC, BCD.DEC (44_bcd.md), over a configuration. The arithmetic is on mathematical integers, with no clamp and no bounds check (R121). -/

namespace Sys2Proof.Machine

/-- The integer `r` of BCD.ENC: `(t << 4) + u + BCD_ENC_BIAS` with `t = v div 10`, `u = v mod 10` (R122). -/
def bcdEncNat (C : Config) (v : Payload) : Nat := (v.toNat / 10) * 16 + v.toNat % 10 + C.bcdEncBias

/-- `word = trunc_8(r)` (R122). -/
def bcdEnc (C : Config) (v : Payload) : Byte := BitVec.ofNat 8 (bcdEncNat C v)

/-- The integer `r` of BCD.DEC: `h * 10 + l - BCD_DEC_BIAS` with `h`, `l` the nibbles of the word (R123). -/
def bcdDecInt (C : Config) (w : Byte) : Int := (highNibble w).toNat * 10 + (lowNibble w).toNat - (C.bcdDecBias : Int)

/-- `value = ofInt_9(r)` (R123). -/
def bcdDec (C : Config) (w : Byte) : BitVec 9 := BitVec.ofInt 9 (bcdDecInt C w)

/-- The well-formed biased-BCD words: both nibbles in 1 to 10 (R120, R124 item 5). -/
def bcdWellFormed (w : Byte) : Bool :=
  decide (1 ≤ (highNibble w).toNat ∧ (highNibble w).toNat ≤ 10 ∧ 1 ≤ (lowNibble w).toNat ∧ (lowNibble w).toNat ≤ 10)

/-- BCD.ENC (R122). -/
def execBcdEnc (v : Payload) (s : State) : Host.Outcome State Fault Refusal := respond (.bcdWord (bcdEnc Config.hw v)) s

/-- BCD.DEC (R123). -/
def execBcdDec (w : Byte) (s : State) : Host.Outcome State Fault Refusal := respond (.bcdValue (bcdDec Config.hw w)) s

end Sys2Proof.Machine
end

