-- ==== Sys2Proof/Machine/Tables.lean ====
section
/-! DEFINITION. The five read-only tables (10_state.md R24 to R29) as the closed forms that define their entries
(20_memory.md R41), and the constructions of 45_tablegen.md as lists. -/

namespace Sys2Proof.Machine

/-! ### The tables, read by an index of exactly log2 of their length -/

/-- `PAR_TABLE[v] = 1 - odd(v)` (R25, R81). -/
def parTable (v : Payload) : BitVec 1 := BitVec.ofBool (!odd v)

/-- `H84_COR[w] = 1 - odd(w)` (R28): the correctable-error mask. -/
def h84Cor (w : Byte) : BitVec 1 := BitVec.ofBool (!odd w)

/-- The sixteen nibbles in order. -/
def nibbles : List Nibble := (List.range 16).map (BitVec.ofNat 4)

/-- Whether `w` is one of the 16 entries of the encode table, a valid code-word (glossary; R100). -/
def isCodeword (T : H84Table) (w : Byte) : Bool := nibbles.any fun n => T.entry n == w

/-- `H84_UNC[w]`: 1 exactly when `odd(w)` and `w` is not an entry of the encode table (R29): the uncorrectable-error mask. -/
def h84Unc (T : H84Table) (w : Byte) : BitVec 1 := BitVec.ofBool (odd w && !isCodeword T w)

/-- `near(w)`: the nibbles whose code-word is at distance 0 or 1 from `w` (R97). -/
def near (T : H84Table) (w : Byte) : List Nibble := nibbles.filter fun n => decide (hd w (T.entry n) ≤ 1)

/-- `H84_DEC[w]`: `n` when `near(w)` is the one nibble `n`, the sentinel when it is empty (R27, R98).
DESIGN CHOICE: the sentinel also where two code-words are near, which no table with the properties of R93 allows
(R94); assumption 12. Safe. -/
def h84DecTable (T : H84Table) (sentinel : Nibble) (w : Byte) : Nibble :=
  match near T w with
  | [n] => n
  | _ => sentinel

/-! ### The constructions of 45_tablegen.md -/

/-- `TM(n, p0)`: start from one bit and double `n` times by appending the complement (R130). -/
def tm : Nat → Bool → List Bool
  | 0, p0 => [p0]
  | n + 1, p0 => tm n p0 ++ (tm n p0).map (!·)

/-- `PAR_TABLE = TM(7, 1)` (R132). -/
def parTableBuilt : List Bool := tm 7 true

/-- `H84_COR = TM(8, 1)` (R133). -/
def h84CorBuilt : List Bool := tm 8 true

/-- `H84_UNC`: `TM(8, 0)` with the 16 entries at the code-words cleared (R134). -/
def h84UncBuilt (T : H84Table) : List Bool :=
  nibbles.foldl (fun u n => u.set (T.entry n).toNat false) (tm 8 false)

/-- `H84_DEC` by the assignments of R135: the sentinel everywhere, then each nibble at its code-word and at the eight
words one bit away. -/
def h84DecBuilt (T : H84Table) (sentinel : Nibble) : List Nibble :=
  nibbles.foldl
    (fun d n => (List.range 8).foldl (fun d i => d.set (flipBit (T.entry n) i).toNat n) (d.set (T.entry n).toNat n))
    (List.replicate 256 sentinel)

/-! ### The check equations of the code -/

/-- The code-word of `n` by the parity equations `P1` to `P4` and the bit layout `P1 D1 P2 D2 P3 D3 P4 D4`, bit 0
first (R90, R91, R95). -/
def h84Equations (n : Nibble) : Byte :=
  let d1 := n.getLsbD 0
  let d2 := n.getLsbD 1
  let d3 := n.getLsbD 2
  let d4 := n.getLsbD 3
  let p1 := true ^^ d1 ^^ d3 ^^ d4
  let p2 := true ^^ d1 ^^ d2 ^^ d4
  let p3 := true ^^ d1 ^^ d2 ^^ d3
  let p4 := true ^^ p1 ^^ d1 ^^ p2 ^^ d2 ^^ p3 ^^ d3 ^^ d4
  BitVec.ofBool d4 ++ BitVec.ofBool p4 ++ BitVec.ofBool d3 ++ BitVec.ofBool p3 ++
    BitVec.ofBool d2 ++ BitVec.ofBool p2 ++ BitVec.ofBool d1 ++ BitVec.ofBool p1

/-- The four check sums `A`, `B`, `C`, `D` of a received word, true when the check passes (R102). -/
def h84Checks (w : Byte) : Bool × Bool × Bool × Bool :=
  (w.getLsbD 0 ^^ w.getLsbD 1 ^^ w.getLsbD 5 ^^ w.getLsbD 7,
   w.getLsbD 2 ^^ w.getLsbD 1 ^^ w.getLsbD 3 ^^ w.getLsbD 7,
   w.getLsbD 4 ^^ w.getLsbD 1 ^^ w.getLsbD 3 ^^ w.getLsbD 5,
   odd w)

/-- The bit to flip back when the overall check fails, by which of `A`, `B`, `C` pass (R102). -/
def h84BitInError : Bool → Bool → Bool → Nat
  | true, true, true => 6
  | false, true, true => 0
  | true, false, true => 2
  | true, true, false => 4
  | false, false, true => 7
  | false, true, false => 5
  | true, false, false => 3
  | false, false, false => 1

/-- The class by check sums (R102). -/
def h84ClassByChecks (w : Byte) : WordClass :=
  match h84Checks w with
  | (_, _, _, false) => .corrected
  | (true, true, true, true) => .valid
  | (_, _, _, true) => .uncorrectable

/-- The decoded nibble by check sums: the data bits after the one bit in error is flipped back (R102); the sentinel for
an Uncorrectable word (R98). -/
def h84NibbleByChecks (sentinel : Nibble) (w : Byte) : Nibble :=
  match h84Checks w with
  | (a, b, c, false) => dataBits (flipBit w (h84BitInError a b c))
  | (true, true, true, true) => dataBits w
  | (_, _, _, true) => sentinel

end Sys2Proof.Machine
end

