-- ==== Sys2Proof/Machine/Flags.lean ====
section
/-! DEFINITION. There is no flag, condition code or status register (10_state.md R21) and no operation writes one. What stands nearest, and is a result, not a flag, is the classification: the two masks read together (42_hamming84.md R100) and the priority between two classes (43_hamming168.md R113, 60_exceptions.md R155). -/

namespace Sys2Proof.Machine

/-- The class the two masks give (R100, R151): the uncorrectable mask and the correctable mask are never both 1. -/
def classOfMasks (unc cor : BitVec 1) : WordClass :=
  if unc = 1 then .uncorrectable else if cor = 1 then .corrected else .valid

/-- The class of a word, from `H84_UNC` and `H84_COR` (R100). -/
def classify (T : H84Table) (w : Byte) : WordClass := classOfMasks (h84Unc T w) (h84Cor w)

/-- The class of a pair from its halves' classes: Uncorrectable over Corrected over Valid (R113, R155). -/
def combineClasses : WordClass → WordClass → WordClass
  | .uncorrectable, _ => .uncorrectable
  | _, .uncorrectable => .uncorrectable
  | .corrected, _ => .corrected
  | _, .corrected => .corrected
  | .valid, .valid => .valid

end Sys2Proof.Machine
end

