-- ==== Sys2Proof/Machine/Hamming168.lean ====
section
/-! DEFINITION. The unit `hamming_168_codec`: H168.ENC, H168.DEC, H168.SYN (43_hamming168.md), with its own reads of the Hamming(8,4) tables (90_conflicts.md C6), over a configuration. -/

namespace Sys2Proof.Machine

/-- `enc_pair = H84_ENC[b[7:4]] ++ H84_ENC[b[3:0]]` (R111). -/
def h168Enc (C : Config) (b : Byte) : PairWord :=
  mkPair (C.h84EncTable.entry (lowNibble b)) (C.h84EncTable.entry (highNibble b))

/-- `dec_byte = H84_DEC[p[15:8]] ++ H84_DEC[p[7:0]]` (R112). -/
def h168Dec (C : Config) (p : PairWord) : Byte :=
  h84DecTable C.h84EncTable C.h84Sentinel (pairHi p) ++ h84DecTable C.h84EncTable C.h84Sentinel (pairLo p)

/-- `dec_class`: Uncorrectable if either half is, else Corrected if either half is, else Valid (R113). -/
def h168Syn (C : Config) (p : PairWord) : WordClass :=
  combineClasses (classify C.h84EncTable (pairLo p)) (classify C.h84EncTable (pairHi p))

/-- H168.ENC (R111). -/
def execH168Enc (b : Byte) (s : State) : Host.Outcome State Fault Refusal := respond (.encPair (h168Enc Config.hw b)) s

/-- H168.DEC (R112). -/
def execH168Dec (p : PairWord) (s : State) : Host.Outcome State Fault Refusal := respond (.decByte (h168Dec Config.hw p)) s

/-- H168.SYN (R113). -/
def execH168Syn (p : PairWord) (s : State) : Host.Outcome State Fault Refusal := respond (.decClass (h168Syn Config.hw p)) s

end Sys2Proof.Machine
end

