-- ==== Sys2Proof/Machine/Hamming84.lean ====
section
/-! DEFINITION. The units `hamming_84_encoder`, `hamming_84_decoder` and `hamming_84_syndrome`: H84.ENC, H84.DEC, H84.SYN (42_hamming84.md), over a configuration. -/

namespace Sys2Proof.Machine

/-- `cw = H84_ENC[n]` (R96). -/
def h84Enc (C : Config) (n : Nibble) : Byte := C.h84EncTable.entry n

/-- `nibble = H84_DEC[w]` (R98). -/
def h84Dec (C : Config) (w : Byte) : Nibble := h84DecTable C.h84EncTable C.h84Sentinel w

/-- `class = H84_UNC[w] ++ H84_COR[w]`, as one of the three classes (R100). -/
def h84Syn (C : Config) (w : Byte) : WordClass := classify C.h84EncTable w

/-- H84.ENC (R96). -/
def execH84Enc (n : Nibble) (s : State) : Host.Outcome State Fault Refusal := respond (.cw (h84Enc Config.hw n)) s

/-- H84.DEC (R98). -/
def execH84Dec (w : Byte) (s : State) : Host.Outcome State Fault Refusal := respond (.nibble (h84Dec Config.hw w)) s

/-- H84.SYN (R100). -/
def execH84Syn (w : Byte) (s : State) : Host.Outcome State Fault Refusal := respond (.synClass (h84Syn Config.hw w)) s

end Sys2Proof.Machine
end

