-- ==== Sys2Proof/Machine/Parity.lean ====
section
/-! DEFINITION. The unit `parity_checker`: PAR.ENC, PAR.DEC, PAR.CHK (41_parity.md). -/

namespace Sys2Proof.Machine

/-- `enc_word = PAR_TABLE[v] ++ v` (R82). -/
def parEnc (v : Payload) : Byte := parTable v ++ v

/-- `dec_value = w[6:0]`: the parity bit is discarded and not looked at (R83). -/
def parDec (w : Byte) : Payload := w.extractLsb' 0 7

/-- `has_error = (w[7] != PAR_TABLE[w[6:0]])` (R84). -/
def parChk (w : Byte) : BitVec 1 := BitVec.ofBool (w.extractLsb' 7 1 != parTable (w.extractLsb' 0 7))

/-- PAR.ENC (R82). -/
def execParEnc (v : Payload) (s : State) : Host.Outcome State Fault Refusal := respond (.encWord (parEnc v)) s

/-- PAR.DEC (R83). -/
def execParDec (w : Byte) (s : State) : Host.Outcome State Fault Refusal := respond (.decValue (parDec w)) s

/-- PAR.CHK (R84). -/
def execParChk (w : Byte) (s : State) : Host.Outcome State Fault Refusal := respond (.hasError (parChk w)) s

end Sys2Proof.Machine
end

