-- ==== Sys2Proof/Machine/Dispatch.lean ====
section
/-! DEFINITION. One arm per operation (30_encoding.md R62). -/

namespace Sys2Proof.Machine

def exec (i : Instr) (s : State) : Host.Outcome State Fault Refusal :=
  match i with
  | .parEnc v => Sys2Proof.Machine.execParEnc v s
  | .parDec w => Sys2Proof.Machine.execParDec w s
  | .parChk w => Sys2Proof.Machine.execParChk w s
  | .h84Enc n => Sys2Proof.Machine.execH84Enc n s
  | .h84Dec w => Sys2Proof.Machine.execH84Dec w s
  | .h84Syn w => Sys2Proof.Machine.execH84Syn w s
  | .h168Enc b => Sys2Proof.Machine.execH168Enc b s
  | .h168Dec p => Sys2Proof.Machine.execH168Dec p s
  | .h168Syn p => Sys2Proof.Machine.execH168Syn p s
  | .bcdEnc v => Sys2Proof.Machine.execBcdEnc v s
  | .bcdDec w => Sys2Proof.Machine.execBcdDec w s

end Sys2Proof.Machine
end

