-- ==== Sys2Proof/Machine/Units.lean ====
section
/-! DEFINITION. The units used directly, without the wrapper (10_state.md R22, R32; 30_encoding.md R69): which operation an output port performs, and what it carries. -/

namespace Sys2Proof.Machine

/-- What the output port of a unit carries when its input port is driven with the operand (R22). -/
def unitOutput : Instr → Output
  | .parEnc v => .encWord (parEnc v)
  | .parDec w => .decValue (parDec w)
  | .parChk w => .hasError (parChk w)
  | .h84Enc n => .cw (h84Enc Config.hw n)
  | .h84Dec w => .nibble (h84Dec Config.hw w)
  | .h84Syn w => .synClass (h84Syn Config.hw w)
  | .h168Enc b => .encPair (h168Enc Config.hw b)
  | .h168Dec p => .decByte (h168Dec Config.hw p)
  | .h168Syn p => .decClass (h168Syn Config.hw p)
  | .bcdEnc v => .bcdWord (bcdEnc Config.hw v)
  | .bcdDec w => .bcdValue (bcdDec Config.hw w)

/-- The operation an output port performs, its operand the level on the port's input port (R22). -/
def portOperation (u : UnitInputs) : OutPort → Instr
  | .encWord => .parEnc u.encValue
  | .decValue => .parDec u.parWord
  | .hasError => .parChk u.parWord
  | .cw => .h84Enc u.nibble
  | .nibble => .h84Dec u.decCw
  | .synClass => .h84Syn u.synCw
  | .encPair => .h168Enc u.encByte
  | .decByte => .h168Dec u.decPair
  | .decClass => .h168Syn u.decPair
  | .bcdWord => .bcdEnc u.bcdValue
  | .bcdValue => .bcdDec u.bcdWord

/-- The level on an output port: at all times a function of the levels on the input ports (R22, R31). -/
def portLevel (u : UnitInputs) (o : OutPort) : Output := unitOutput (portOperation u o)

/-- The input port an operation takes its operand from, with that operand (R22). -/
def inputOf : Instr → Drive
  | .parEnc v => .encValue v
  | .parDec w => .parWord w
  | .parChk w => .parWord w
  | .h84Enc n => .nibble n
  | .h84Dec w => .decCw w
  | .h84Syn w => .synCw w
  | .h168Enc b => .encByte b
  | .h168Dec p => .decPair p
  | .h168Syn p => .decPair p
  | .bcdEnc v => .bcdValue v
  | .bcdDec w => .bcdWord w

/-- The output port an operation leaves its result on (R22). -/
def outputOf : Instr → OutPort
  | .parEnc _ => .encWord
  | .parDec _ => .decValue
  | .parChk _ => .hasError
  | .h84Enc _ => .cw
  | .h84Dec _ => .nibble
  | .h84Syn _ => .synClass
  | .h168Enc _ => .encPair
  | .h168Dec _ => .decByte
  | .h168Syn _ => .decClass
  | .bcdEnc _ => .bcdWord
  | .bcdDec _ => .bcdValue

end Sys2Proof.Machine
end

