-- ==== Sys2Proof/Machine/Sequence.lean ====
section
/-! DEFINITION. The sequence pseudo-operations (46_batch.md R140 to R146), their expansion into single operations (30_encoding.md R68) and the host's assembly of the responses. -/

namespace Sys2Proof.Machine

/-- The pairs of an interleaved sequence: elements `2i` and `2i+1` form pair `i`, element `2i` as `pair[0]` (20_memory.md
R46). A last element without a partner forms none; R143 and R144 never come here with one. -/
def pairsOf : List Byte → List PairWord
  | lo :: hi :: rest => mkPair lo hi :: pairsOf rest
  | [_] => []
  | [] => []

/-- The interleaved sequence of pairs, low-nibble code-word first within each (R142). -/
def interleave : List PairWord → List Byte
  | p :: rest => pairLo p :: pairHi p :: interleave rest
  | [] => []

/-- The length check comes before any element is looked at (R143, R144; 60_exceptions.md R155): an odd length is
`InvalidInputLength` of that length, with no result element (R153). -/
def checkedPairs (ws : List Byte) (result : List PairWord → SeqResult) : SeqOutcome :=
  if ws.length % 2 ≠ 0 then .failed (.invalidInputLength ws.length) else .done (result (pairsOf ws))

/-- What a sequence pseudo-operation returns (R141 to R144). -/
def runSeq : SeqOp → SeqOutcome
  | .parEnc xs => .done (.words (xs.map parEnc))
  | .parDec xs => .done (.payloads (xs.map parDec))
  | .parChk xs => .done (.bits (xs.map parChk))
  | .h84Enc xs => .done (.words (xs.map (h84Enc Config.hw)))
  | .h84Dec xs => .done (.nibbles (xs.map (h84Dec Config.hw)))
  | .h84Syn xs => .done (.classes (xs.map (h84Syn Config.hw)))
  | .h168Enc xs => .done (.words (interleave (xs.map (h168Enc Config.hw))))
  | .h168Dec ws => checkedPairs ws fun ps => .words (ps.map (h168Dec Config.hw))
  | .h168Syn ws => checkedPairs ws fun ps => .classes (ps.map (h168Syn Config.hw))
  | .bcdEnc xs => .done (.words (xs.map (bcdEnc Config.hw)))
  | .bcdDec xs => .done (.values (xs.map (bcdDec Config.hw)))

/-- The failure code of an outcome: 1 for `InvalidInputLength`, 0 for none (60_exceptions.md R153). -/
def failureCode : SeqOutcome → Nat
  | .done _ => 0
  | .failed (.invalidInputLength _) => 1

/-- The single operations a sequence pseudo-operation expands into, in order (R68); none where the length check fails,
since then nothing is presented to a unit (R153). -/
def expand : SeqOp → Option (List Instr)
  | .parEnc xs => some (xs.map .parEnc)
  | .parDec xs => some (xs.map .parDec)
  | .parChk xs => some (xs.map .parChk)
  | .h84Enc xs => some (xs.map .h84Enc)
  | .h84Dec xs => some (xs.map .h84Dec)
  | .h84Syn xs => some (xs.map .h84Syn)
  | .h168Enc xs => some (xs.map .h168Enc)
  | .h168Dec ws => if ws.length % 2 ≠ 0 then none else some ((pairsOf ws).map .h168Dec)
  | .h168Syn ws => if ws.length % 2 ≠ 0 then none else some ((pairsOf ws).map .h168Syn)
  | .bcdEnc xs => some (xs.map .bcdEnc)
  | .bcdDec xs => some (xs.map .bcdDec)

/-- The result sequence a host makes of the wrapper's responses to the expansion, each cut back to the result's own width
(R64, R141 to R144). -/
def assemble : SeqOp → List RspWord → SeqResult
  | .parEnc _, ys => .words (ys.map (·.setWidth 8))
  | .parDec _, ys => .payloads (ys.map (·.setWidth 7))
  | .parChk _, ys => .bits (ys.map (·.setWidth 1))
  | .h84Enc _, ys => .words (ys.map (·.setWidth 8))
  | .h84Dec _, ys => .nibbles (ys.map (·.setWidth 4))
  | .h84Syn _, ys => .classes (ys.filterMap fun y => classOfBits (y.setWidth 2))
  | .h168Enc _, ys => .words (interleave ys)
  | .h168Dec _, ys => .words (ys.map (·.setWidth 8))
  | .h168Syn _, ys => .classes (ys.filterMap fun y => classOfBits (y.setWidth 2))
  | .bcdEnc _, ys => .words (ys.map (·.setWidth 8))
  | .bcdDec _, ys => .values (ys.map (·.setWidth 9))

end Sys2Proof.Machine
end

