-- ==== Sys2Proof/Machine/HostSide.lean ====
section
/-! DEFINITION. What the host does, one action a step (10_state.md R33; 60_exceptions.md R160). -/

namespace Sys2Proof.Machine

/-- The refusal of a request that selects no operation (R65). -/
def refusalOf : DecodeReject → Refusal
  | .reservedOp op => .reservedOp op

/-- The level on `rsp`: at all times the function of `req` that R60 to R65 give (R32); unspecified for a reserved op code. -/
def rspLevel (w : ReqWord) : Except DecodeReject RspWord := (decode w).map fun i => responseWord (unitOutput i)

/-- The host takes `rsp` for the level on `req`: the operation the request selects is performed (30_encoding.md R62), or
the reserved op code is refused (R65). -/
def readResponse (s : State) : Host.Outcome State Fault Refusal :=
  match decode s.req with
  | .ok i => exec i s
  | .error e => .refused (refusalOf e)

/-- The host reads the output port `o` of a unit (10_state.md R22). -/
def readPort (o : OutPort) (s : State) : State :=
  s.record (.unit (portOperation s.inputs o) (portLevel s.inputs o))

/-- The host presents the operand of `i` to its unit and receives the result (10_state.md R33): the operand is driven on the
unit's input port and its output port is read, in one step. The level stays on the port, which is the host's, until the host
drives it again; the block itself keeps nothing. -/
def presentOperand (i : Instr) (s : State) : State := readPort (outputOf i) (s.drive (inputOf i))

/-- One action of the host. A sequence pseudo-operation is one step (70_reset_and_hazards.md R175; assumption 7), and its
failure is an outcome like another, after which the host may go on (60_exceptions.md R157; assumption 6). -/
def perform (a : Action) (s : State) : Host.Outcome State Fault Refusal :=
  match a with
  | .request w => readResponse (s.setReq w)
  | .driveReq w => .next (s.setReq w)
  | .readRsp => readResponse s
  | .present i => .next (presentOperand i s)
  | .drive d => .next (s.drive d)
  | .read o => .next (readPort o s)
  | .sequence q => .next (s.record (.sequence q (runSeq q)))

/-- The next action of the script; with none left the host asks nothing and nothing changes (R176; assumption 4). -/
def performNext (s : State) : Host.Outcome State Fault Refusal :=
  match s.script with
  | a :: rest => perform a (s.setScript rest)
  | [] => .next s

end Sys2Proof.Machine
end

