-- ==== Sys2Proof/Machine/Step.lean ====
section
/-! DEFINITION. One step: the host's next action (10_state.md R33). -/

namespace Sys2Proof.Machine

/-- One step (R33, R176). -/
def step (s : State) : Host.Outcome State Fault Refusal := performNext s

/-- `s` with the request word `w` (its `nbits` low bits, then the 20 of a request) as the host's next action: the place
step takes its next operation from. A program is a list of requests the host issues (95_test_vectors.md section 3;
assumption 2). -/
def State.withFetchWord (s : State) (nbits w : Nat) : State :=
  s.setScript (.request (BitVec.ofNat 20 (w % 2 ^ nbits)) :: s.script)

end Sys2Proof.Machine
end

