-- ==== Sys2Proof/WellFormed.lean ====
section
/-! DEFINITION. Well-formedness of operations, requests and sequence pseudo-operations. -/

namespace Sys2Proof

/-- An operation is well formed when its op code is a defined one. No operand value is reserved or illegal, so every
operation is (30_encoding.md R65). -/
def Instr.wf (i : Instr) : Bool := opDefined i.opcode

/-- A request word is well formed when its `op` is defined (R65); the operand never makes it ill formed. -/
def reqWf (w : ReqWord) : Bool := opDefined (reqOp w)

/-- A sequence pseudo-operation is well formed when it satisfies the host's one obligation: an even length for
H168.DEC.SEQ and H168.SYN.SEQ (46_batch.md R143, R144; 60_exceptions.md R160). An ill-formed one is not refused: it
gives `InvalidInputLength` (R153). Where this stands for the host's contract it is assumption 19. -/
def SeqOp.wf : SeqOp → Bool
  | .h168Dec ws => ws.length % 2 == 0
  | .h168Syn ws => ws.length % 2 == 0
  | .parEnc _ => true
  | .parDec _ => true
  | .parChk _ => true
  | .h84Enc _ => true
  | .h84Dec _ => true
  | .h84Syn _ => true
  | .h168Enc _ => true
  | .bcdEnc _ => true
  | .bcdDec _ => true

end Sys2Proof
end

