-- ==== Sys2Proof/Safety.lean ====
section
/-! DEFINITION. What counts as a safe run, in the terms the statements use. -/

namespace Sys2Proof.Machine

/-- The response is the one the rules give for what was asked, whatever came before (00_scope.md R10; 70_reset_and_hazards.md R176). -/
def Exchange.Consistent : Exchange → Prop
  | .wrapper req rsp => rspLevel req = .ok rsp
  | .unit i out => out = unitOutput i
  | .sequence q r => r = runSeq q

/-- Every response the host has received is the one the rules give. -/
def State.Consistent (s : State) : Prop := ∀ e ∈ s.log, e.Consistent

/-- The exchange is not a failure (93_implementation_defined.md U6: "the model records a failure and the run is not good"). -/
def Exchange.good : Exchange → Bool
  | .wrapper _ _ => true
  | .unit _ _ => true
  | .sequence _ (.done _) => true
  | .sequence _ (.failed _) => false

/-- A good run: no failure has been recorded. -/
def State.Good (s : State) : Prop := ∀ e ∈ s.log, e.good = true

/-- What the host must do (60_exceptions.md R160): issue no reserved op, and give H168.DEC.SEQ and H168.SYN.SEQ even lengths.
DESIGN CHOICE: every odd length is a breach, although R160 also lets the host accept the failure, and so is driving `req`
with a reserved op without taking `rsp`, although R160 lets the host drive any input; assumption 19. Safe. -/
def Action.keepsContract : Action → Bool
  | .request w => reqWf w
  | .driveReq w => reqWf w
  | .readRsp => true
  | .present _ => true
  | .drive _ => true
  | .read _ => true
  | .sequence q => q.wf

/-- The host keeps its side of the interface from here on (R160; assumption 19), with no reserved op on `req` to be read. -/
def State.KeepsContract (s : State) : Prop := reqWf s.req = true ∧ ∀ a ∈ s.script, a.keepsContract = true

/-- An action that carries its own operand: a request, an operand presented to a unit or a sequence pseudo-operation, not a
separate drive or read of a port. -/
def Action.selfContained : Action → Bool
  | .request _ => true
  | .sequence _ => true
  | .driveReq _ => false
  | .readRsp => false
  | .present _ => true
  | .drive _ => false
  | .read _ => false

/-- An action by which the host puts a level on an input port of a unit used directly (R22). -/
def Action.drivesUnit : Action → Bool
  | .request _ => false
  | .driveReq _ => false
  | .readRsp => false
  | .present _ => true
  | .drive _ => true
  | .read _ => false
  | .sequence _ => false

end Sys2Proof.Machine
end

