-- ==== Sys2Proof/Certificates/Slice0/Obligations.lean ====
section
/-! DEFINITION. The statements for the provers. Each docstring says which rules of spec/ a statement formalises. -/

open Sys2Proof Sys2Proof.Machine

/-! ### Requests: encoding, decoding, dispatch -/

/-- R33: a step presents the host's request word to the wrapper and takes the response of the operation it decodes to.
What step adds around exec: the script moves on, and the word stands on `req`. -/
def Obligations.StepPerformsTheDecodedOperation : Prop :=
  ∀ (s : State) (w : ReqWord) (rest : List Action) (i : Instr),
    s.script = .request w :: rest → decode w = .ok i → i.wf = true →
      step s = exec i { s with script := rest, req := w }

/-- A word placed by `withFetchWord` is the next request performed (the model's convention, assumption 2). -/
def Obligations.PlacedWordIsPerformedNext : Prop :=
  ∀ (s : State) (nbits w : Nat) (i : Instr), decodeTableWord nbits w = some i →
    step (s.withFetchWord nbits w) = exec i { s with req := BitVec.ofNat 20 (w % 2 ^ nbits) }

/-- R62, R63, R65: words written out from the operation map, among them operands with ignored bits set. -/
def Obligations.WrittenOutWordsDecode : Prop :=
  decode 0x0FFC1 = .ok (.parEnc 0x41) ∧ decode 0x100C1 = .ok (.parDec 0xC1) ∧ decode 0x200ED = .ok (.parChk 0xED) ∧
  decode 0x3FFF0 = .ok (.h84Enc 0x0) ∧ decode 0x400EB = .ok (.h84Dec 0xEB) ∧ decode 0x50001 = .ok (.h84Syn 0x01) ∧
  decode 0x600A5 = .ok (.h168Enc 0xA5) ∧ decode 0x78C63 = .ok (.h168Dec 0x8C63) ∧
  decode 0x88C63 = .ok (.h168Syn 0x8C63) ∧ decode 0x9FF80 = .ok (.bcdEnc 0) ∧ decode 0xA00FF = .ok (.bcdDec 0xFF) ∧
  decode 0xB0000 = .error (.reservedOp 0xB) ∧ decode 0xF1234 = .error (.reservedOp 0xF)

/-- R60, R62, R63: decoding inverts encoding for every operation and operand, and a word that decodes is the encoding of
what it decodes to once the bits its row marks `x` are cleared. -/
def Obligations.DecodeInvertsEncode : Prop :=
  (∀ i : Instr, decode (encode i) = .ok i) ∧
  ∀ (w : ReqWord) (i : Instr), decode w = .ok i → encode i = w &&& i.usedMask

/-- R63: the bits of `a` above the operand slice are ignored, whatever their value: two words that agree on the bits an
operation reads decode to the same operation and operand. -/
def Obligations.IgnoredOperandBitsDoNotMatter : Prop :=
  ∀ (w w' : ReqWord) (i : Instr), decode w = .ok i → w &&& i.usedMask = w' &&& i.usedMask → decode w' = .ok i

/-- R62: a request that decodes falls under its own row of the operation map and under no other; a reserved one under
none. -/
def Obligations.EachRequestFallsUnderItsOwnRowOnly : Prop :=
  (∀ (w : ReqWord) (i : Instr), decode w = .ok i → ∀ r ∈ opcodeRows, r.covers w = true ↔ r.mnemonic = i.mnemonic) ∧
  ∀ (w : ReqWord) (e : DecodeReject), decode w = .error e → ∀ r ∈ opcodeRows, r.covers w = false

/-- R65 (where a step is refused is assumption 5): a request with `op` in 0xB to 0xF is refused under its op code, and a
request with any other `op` is answered, whatever its operand; so is a read of `rsp` for the level on `req`; and driving
`req`, reserved or not, without reading is answered and moves `req` only. -/
def Obligations.ReservedRequestsAndOnlyThoseAreRefused : Prop :=
  ∀ (s : State) (w : ReqWord) (rest : List Action),
    ((s.script = .request w :: rest ∨ s.script = .readRsp :: rest ∧ s.req = w) →
      (0xB ≤ (reqOp w).toNat → step s = .refused (.reservedOp (reqOp w))) ∧
      ((reqOp w).toNat < 0xB → ∃ t, step s = .next t)) ∧
    (s.script = .driveReq w :: rest → step s = .next { s with req := w, script := rest })

/-- R69: `rsp` is the extension of what the unit's output port carries when its input port is driven with the operand. -/
def Obligations.WrapperAgreesWithTheUnits : Prop :=
  ∀ (s : State) (w : ReqWord) (rest : List Action) (i : Instr), decode w = .ok i →
    step { s with script := .request w :: rest } =
      .next { s with
        req := w, script := rest,
        log := s.log ++ [.wrapper w (responseWord (portLevel (s.inputs.drive (inputOf i)) (outputOf i)))] }

/-- R22, R32: driving a unit's input port and then reading its output port gives the function of the operand. -/
def Obligations.UnitReadAfterDriveGivesTheResult : Prop :=
  ∀ (s : State) (i : Instr) (rest : List Action),
    Sys2Proof.core.run 2 { s with script := .drive (inputOf i) :: .read (outputOf i) :: rest } =
      .next { s with
        inputs := s.inputs.drive (inputOf i), script := rest, log := s.log ++ [.unit i (unitOutput i)] }

/-- R22: driving one input port changes no output port but those it feeds (`word` feeds two ports of the parity checker,
`dec_pair` two of the Hamming(16,8) codec). -/
def Obligations.DrivingOnePortMovesOnlyWhatItFeeds : Prop :=
  ∀ (u : UnitInputs) (o : OutPort),
    (∀ v, o ≠ .encWord → portLevel (u.drive (.encValue v)) o = portLevel u o) ∧
    (∀ w, o ≠ .decValue → o ≠ .hasError → portLevel (u.drive (.parWord w)) o = portLevel u o) ∧
    (∀ n, o ≠ .cw → portLevel (u.drive (.nibble n)) o = portLevel u o) ∧
    (∀ w, o ≠ .nibble → portLevel (u.drive (.decCw w)) o = portLevel u o) ∧
    (∀ w, o ≠ .synClass → portLevel (u.drive (.synCw w)) o = portLevel u o) ∧
    (∀ b, o ≠ .encPair → portLevel (u.drive (.encByte b)) o = portLevel u o) ∧
    (∀ p, o ≠ .decByte → o ≠ .decClass → portLevel (u.drive (.decPair p)) o = portLevel u o) ∧
    (∀ v, o ≠ .bcdWord → portLevel (u.drive (.bcdValue v)) o = portLevel u o) ∧
    (∀ w, o ≠ .bcdValue → portLevel (u.drive (.bcdWord w)) o = portLevel u o)

/-- R64 (the extension is the spec's decision D25): every result but BCD.DEC's keeps its unsigned value in `y`;
H168.ENC's is already 16 bits; BCD.DEC's `y` is the exact integer, -11 to 154. -/
def Obligations.ResultsAreExtendedToTheResponse : Prop :=
  (∀ w, (responseWord (.encWord w)).toNat = w.toNat) ∧ (∀ v, (responseWord (.decValue v)).toNat = v.toNat) ∧
  (∀ e, (responseWord (.hasError e)).toNat = e.toNat) ∧ (∀ w, (responseWord (.cw w)).toNat = w.toNat) ∧
  (∀ n, (responseWord (.nibble n)).toNat = n.toNat) ∧
  (∀ c, (responseWord (.synClass c)).toNat = (classBits c).toNat) ∧ (∀ p, responseWord (.encPair p) = p) ∧
  (∀ b, (responseWord (.decByte b)).toNat = b.toNat) ∧
  (∀ c, (responseWord (.decClass c)).toNat = (classBits c).toNat) ∧
  (∀ w, (responseWord (.bcdWord w)).toNat = w.toNat) ∧
  ∀ w, (responseWord (.bcdValue (bcdDec Config.hw w))).toInt = bcdDecInt Config.hw w ∧
    -11 ≤ bcdDecInt Config.hw w ∧ bcdDecInt Config.hw w ≤ 154

/-! ### The parity checker -/

/-- R82: PAR.ENC answers the word whose low seven bits are the payload and whose weight is odd; nothing else changes. -/
def Obligations.ParEncAnswersTheOddParityWord : Prop :=
  (∀ (s : State) (v : Payload), ∃ w : Byte,
    exec (.parEnc v) s = .next { s with log := s.log ++ [.wrapper s.req (w.setWidth 16)] } ∧
    w.extractLsb' 0 7 = v ∧ w.getLsbD 7 = !odd v ∧ odd w = true) ∧
  (∀ u, portLevel u .encWord = .encWord (parEnc u.encValue)) ∧
  (∀ a, decode (mkReq 0x0 a) = .ok (.parEnc (a.extractLsb' 0 7))) ∧
  parEnc 0x00 = 0x80 ∧ parEnc 0x7F = 0x7F ∧ parEnc 0x41 = 0xC1

/-- R83: PAR.DEC answers the low seven bits whatever the parity bit; nothing else changes. -/
def Obligations.ParDecAnswersTheLowSevenBits : Prop :=
  (∀ (s : State) (w : Byte), ∃ v : Payload,
    exec (.parDec w) s = .next { s with log := s.log ++ [.wrapper s.req (v.setWidth 16)] } ∧
    v.toNat = w.toNat % 128 ∧ exec (.parDec (w ^^^ 0x80)) s = exec (.parDec w) s) ∧
  (∀ u, portLevel u .decValue = .decValue (parDec u.parWord)) ∧
  (∀ a, decode (mkReq 0x1 a) = .ok (.parDec (a.extractLsb' 0 8))) ∧
  parDec 0xC1 = 0x41 ∧ parDec 0x41 = 0x41

/-- R84: PAR.CHK answers 1 exactly when the parity bit differs from the odd-parity bit of the low seven bits, which is
exactly when the weight of the word is even; nothing else changes. -/
def Obligations.ParChkAnswersWhetherTheWeightIsEven : Prop :=
  (∀ (s : State) (w : Byte), ∃ e : BitVec 1,
    exec (.parChk w) s = .next { s with log := s.log ++ [.wrapper s.req (e.setWidth 16)] } ∧
    (e = 1 ↔ w.getLsbD 7 ≠ !odd (w.extractLsb' 0 7)) ∧ (e = 1 ↔ odd w = false)) ∧
  (∀ u, portLevel u .hasError = .hasError (parChk u.parWord)) ∧
  (∀ a, decode (mkReq 0x2 a) = .ok (.parChk (a.extractLsb' 0 8))) ∧
  parChk 0x00 = 1 ∧ parChk 0xFF = 1 ∧ parChk 0x80 = 0 ∧ parChk 0x7F = 0 ∧ parChk 0xC1 = 0 ∧ parChk 0x41 = 1

/-- R85: the laws of the parity operations, items 1 to 3, 5 and 6 as written. Item 4 prints `1 - odd(e)`, which items 2 and
3 and rule R84 contradict (for `e = 0` it would be 1); it stands here by its own words, "an odd number of flipped bits is
detected, an even number (including two) is not", as `odd(e)` (the model's reading, assumption 16). -/
def Obligations.ParityLaws : Prop :=
  (∀ v, parDec (parEnc v) = v) ∧
  (∀ v, parChk (parEnc v) = 0) ∧
  (∀ v i, i < 8 → parChk (flipBit (parEnc v) i) = 1) ∧
  (∀ v e, parChk (parEnc v ^^^ e) = BitVec.ofBool (odd e)) ∧
  (∀ w, (parEnc (parDec w) = w ↔ parChk w = 0) ∧ (parChk w = 1 → parEnc (parDec w) = w ^^^ 0x80)) ∧
  (∀ v v', parEnc v = parEnc v' → v = v') ∧ (∀ w, odd w = true ↔ ∃ v, parEnc v = w)

/-! ### The Hamming(8,4) units -/

/-- R92 (entries 1 to 15 are assumption 9, not the source's): the encode table is what the parity equations and the bit
layout give, and these are its entries. -/
def Obligations.EncodeTableFollowsTheCheckEquations : Prop :=
  (∀ n, Config.hw.h84EncTable.entry n = h84Equations n) ∧
  nibbles.map Config.hw.h84EncTable.entry =
    [0x15, 0x02, 0x49, 0x5E, 0x64, 0x73, 0x38, 0x2F, 0xD0, 0xC7, 0x8C, 0x9B, 0xA1, 0xB6, 0xFD, 0xEA]

/-- R93, properties 1 to 6 (the table is assumption 9): this hardware's table is an admissible one, and two entries are
at distance 8 when they are `n` and `n ^ 0xF` and at distance 4 otherwise. -/
def Obligations.EncodeTableIsAdmissible : Prop :=
  Config.hw.h84EncTable.Good ∧
  ∀ m n, m ≠ n → hd (Config.hw.h84EncTable.entry m) (Config.hw.h84EncTable.entry n) = if m = n ^^^ 0xF then 8 else 4

/-- R94: for EVERY table of odd-weight entries at pairwise distance 4 or more, the 256 words fall into 16 valid
code-words, 128 words of even weight each at distance 1 from one and only one code-word, and 112 words at distance 2 or
more from all; and for this table each of the 112 is at distance 2 from exactly four, no word being farther away. -/
def Obligations.EverySecdedTablePartitionsTheWords : Prop :=
  (∀ T : H84Table, T.Secded →
    (∀ w, isCodeword T w = true → odd w = true) ∧
    (∀ w, odd w = false → isCodeword T w = false ∧ ∃! n, hd w (T.entry n) = 1) ∧
    (∀ w, odd w = true → isCodeword T w = false → ∀ n, 2 ≤ hd w (T.entry n)) ∧
    (Finset.univ.filter fun w => isCodeword T w = true).card = 16 ∧
    (Finset.univ.filter fun w : Byte => odd w = false).card = 128 ∧
    (Finset.univ.filter fun w => odd w = true ∧ isCodeword T w = false).card = 112) ∧
  (∀ w, odd w = true → isCodeword Config.hw.h84EncTable w = false →
    (nibbles.filter fun n => hd w (Config.hw.h84EncTable.entry n) == 2).length = 4) ∧
  ∀ w, ∃ n, hd w (Config.hw.h84EncTable.entry n) ≤ 2

/-- R96 (the table's values are assumption 9): H84.ENC answers the table's entry, a code-word of odd weight; nothing
else changes. -/
def Obligations.H84EncAnswersTheTableEntry : Prop :=
  (∀ (s : State) (n : Nibble), ∃ w : Byte,
    exec (.h84Enc n) s = .next { s with log := s.log ++ [.wrapper s.req (w.setWidth 16)] } ∧
    w = Config.hw.h84EncTable.entry n ∧ odd w = true ∧ w ≠ 0x00 ∧ w ≠ 0xFF) ∧
  (∀ u, portLevel u .cw = .cw (h84Enc Config.hw u.nibble)) ∧
  (∀ a, decode (mkReq 0x3 a) = .ok (.h84Enc (a.extractLsb' 0 4))) ∧
  h84Enc Config.hw 0x0 = 0x15 ∧ h84Enc Config.hw 0xF = 0xEA

/-- R98 (the table's values are assumption 9): H84.DEC answers the nibble of the one code-word at distance 0 or 1, and
0xF when every code-word is at distance 2 or more; 144 words are of the first kind, and for 80 of them the nibble is the
word's own data bits. Nothing else changes. -/
def Obligations.H84DecAnswersTheNearestNibbleOrTheSentinel : Prop :=
  (∀ (s : State) (w : Byte), ∃ n : Nibble,
    exec (.h84Dec w) s = .next { s with log := s.log ++ [.wrapper s.req (n.setWidth 16)] } ∧
    ((∀ m, hd w (Config.hw.h84EncTable.entry m) ≤ 1 ↔ m = n) ∨
      ((∀ m, 2 ≤ hd w (Config.hw.h84EncTable.entry m)) ∧ n = 0xF))) ∧
  (∀ u, portLevel u .nibble = .nibble (h84Dec Config.hw u.decCw)) ∧
  (∀ a, decode (mkReq 0x4 a) = .ok (.h84Dec (a.extractLsb' 0 8))) ∧
  ((List.range 256).countP fun k => (near Config.hw.h84EncTable (BitVec.ofNat 8 k)).length == 1) = 144 ∧
  ((List.range 256).countP fun k => near Config.hw.h84EncTable (BitVec.ofNat 8 k) == [dataBits (BitVec.ofNat 8 k)]) = 80 ∧
  h84Dec Config.hw 0x15 = 0x0 ∧ h84Dec Config.hw 0xEB = 0xF ∧ h84Dec Config.hw 0x01 = 0xF ∧
  h84Dec Config.hw 0x00 = 0x1 ∧ h84Dec Config.hw 0xFF = 0xE

/-- R99 (the table's values are assumption 9; nine words, against the glossary's fifteen, is assumption 17): 0xF is the
result for 0xEA and the eight words one bit away from it, none of which is Uncorrectable, and for the Uncorrectable
words, 112 of the 121 in all; so 0xF does not by itself signal an error. -/
def Obligations.SentinelDoesNotByItselfSignalAnError : Prop :=
  (∀ w, h84Dec Config.hw w = 0xF ↔
    w ∈ [0xEA, 0xEB, 0xE8, 0xEE, 0xE2, 0xFA, 0xCA, 0xAA, 0x6A] ∨ h84Syn Config.hw w = .uncorrectable) ∧
  (∀ w ∈ [0xEA, 0xEB, 0xE8, 0xEE, 0xE2, 0xFA, 0xCA, 0xAA, 0x6A], h84Syn Config.hw w ≠ .uncorrectable) ∧
  ((List.range 256).countP fun k => h84Syn Config.hw (BitVec.ofNat 8 k) == .uncorrectable) = 112 ∧
  ((List.range 256).countP fun k => h84Dec Config.hw (BitVec.ofNat 8 k) == 0xF) = 121

/-- R100 (the table's values are assumption 9, the two-bit encoding the spec's decision D4): H84.SYN answers Valid for
an entry of the table, Corrected for even weight, Uncorrectable for odd weight otherwise, as the two masks side by side,
and never 0b11; nothing else changes. -/
def Obligations.H84SynAnswersTheClass : Prop :=
  (∀ (s : State) (w : Byte), ∃ c : WordClass,
    exec (.h84Syn w) s = .next { s with log := s.log ++ [.wrapper s.req ((classBits c).setWidth 16)] } ∧
    (c = .valid ↔ ∃ n, Config.hw.h84EncTable.entry n = w) ∧ (c = .corrected ↔ odd w = false) ∧
    (c = .uncorrectable ↔ odd w = true ∧ ∀ n, Config.hw.h84EncTable.entry n ≠ w) ∧
    classBits c = h84Unc Config.hw.h84EncTable w ++ h84Cor w ∧ classBits c ≠ 0b11) ∧
  classBits .valid = 0b00 ∧ classBits .corrected = 0b01 ∧ classBits .uncorrectable = 0b10 ∧
  (∀ u, portLevel u .synClass = .synClass (h84Syn Config.hw u.synCw)) ∧
  (∀ a, decode (mkReq 0x5 a) = .ok (.h84Syn (a.extractLsb' 0 8))) ∧
  h84Syn Config.hw 0x15 = .valid ∧ h84Syn Config.hw 0xEB = .corrected ∧ h84Syn Config.hw 0x01 = .uncorrectable ∧
  h84Syn Config.hw 0x00 = .corrected ∧ h84Syn Config.hw 0xFF = .corrected

/-- R101: for EVERY admissible table the description of each class by distance agrees with the one by weight, and the
class is not Uncorrectable exactly when the decoded nibble's code-word is within distance 1. -/
def Obligations.ClassesAgreeWithDistances : Prop :=
  ∀ T : H84Table, T.Good → ∀ w,
    (classify T w = .valid ↔ ∃ n, hd w (T.entry n) = 0) ∧
    (classify T w = .corrected ↔ ∃! n, hd w (T.entry n) = 1) ∧ (classify T w = .corrected ↔ odd w = false) ∧
    (classify T w = .uncorrectable ↔ odd w = true ∧ isCodeword T w = false) ∧
    (classify T w = .uncorrectable ↔ near T w = []) ∧
    (classify T w = .uncorrectable ↔ ∀ n, 2 ≤ hd w (T.entry n)) ∧
    (classify T w ≠ .uncorrectable ↔ hd w (T.entry (h84DecTable T 0xF w)) ≤ 1)

/-- R102 (the table's values are assumption 9): decoding and classifying by the four check sums gives what the tables
give, for every word. -/
def Obligations.CheckSumsAgreeWithTheTables : Prop :=
  ∀ w, h84ClassByChecks w = h84Syn Config.hw w ∧ h84NibbleByChecks 0xF w = h84Dec Config.hw w

/-- R103, items 1, 2 and 4 to 7 less their counts, for EVERY configuration with an admissible table: no error is decoded,
one flipped bit is corrected, two are detected, three are miscorrected, four give another code-word or are detected. -/
def Obligations.SingleErrorsCorrectedDoubleErrorsDetected : Prop :=
  ∀ C : Config, C.h84EncTable.Good → C.h84Sentinel = 0xF →
    (∀ v, h84Dec C (h84Enc C v) = v ∧ h84Syn C (h84Enc C v) = .valid) ∧
    (∀ v i, i < 8 → h84Syn C (flipBit (h84Enc C v) i) = .corrected ∧ h84Dec C (flipBit (h84Enc C v) i) = v) ∧
    (∀ v e, popcount e = 2 → h84Syn C (h84Enc C v ^^^ e) = .uncorrectable ∧ h84Dec C (h84Enc C v ^^^ e) = 0xF) ∧
    (∀ w, h84Enc C (h84Dec C w) = w ↔ h84Syn C w = .valid) ∧
    (∀ v e, popcount e = 3 → h84Syn C (h84Enc C v ^^^ e) = .corrected ∧ h84Dec C (h84Enc C v ^^^ e) ≠ v) ∧
    (∀ v e, popcount e = 4 → (h84Syn C (h84Enc C v ^^^ e) = .valid ∧ h84Dec C (h84Enc C v ^^^ e) ≠ v) ∨
      h84Syn C (h84Enc C v ^^^ e) = .uncorrectable) ∧
    (∀ v v', h84Enc C v = h84Enc C v' → v = v') ∧ (∀ n, ∃ w, h84Dec C w = n)

/-- R103, items 3, 6 and 7, for this table (assumption 9): the source's scenarios, the 14 and 56 of the 70 patterns of
weight 4, and nine words for each nibble but 0xF. -/
def Obligations.ErrorPatternCountsOfThisTable : Prop :=
  h84Enc Config.hw 0x0 = 0x15 ∧ h84Dec Config.hw 0x15 = 0x0 ∧ h84Syn Config.hw 0x15 = .valid ∧
  h84Dec Config.hw (h84Enc Config.hw 0xF ^^^ 0x01) = 0xF ∧ h84Syn Config.hw 0xEB = .corrected ∧
  (∀ v, ((List.range 256).countP fun k => popcount (BitVec.ofNat 8 k) == 4 &&
      h84Syn Config.hw (h84Enc Config.hw v ^^^ BitVec.ofNat 8 k) == .valid) = 14 ∧
    ((List.range 256).countP fun k => popcount (BitVec.ofNat 8 k) == 4 &&
      h84Syn Config.hw (h84Enc Config.hw v ^^^ BitVec.ofNat 8 k) == .uncorrectable) = 56) ∧
  ∀ n, ((List.range 256).countP fun k => h84Dec Config.hw (BitVec.ofNat 8 k) == n) = if n = 0xF then 121 else 9

/-! ### The Hamming(16,8) codec -/

/-- R111 (the table's values are assumption 9): H168.ENC answers the low nibble's code-word in bits 7:0 and the high
nibble's in bits 15:8; nothing else changes. -/
def Obligations.H168EncAnswersTheTwoCodewords : Prop :=
  (∀ (s : State) (b : Byte), ∃ p : PairWord,
    exec (.h168Enc b) s = .next { s with log := s.log ++ [.wrapper s.req p] } ∧
    p.extractLsb' 0 8 = Config.hw.h84EncTable.entry (b.extractLsb' 0 4) ∧
    p.extractLsb' 8 8 = Config.hw.h84EncTable.entry (b.extractLsb' 4 4)) ∧
  (∀ u, portLevel u .encPair = .encPair (h168Enc Config.hw u.encByte)) ∧
  (∀ a, decode (mkReq 0x6 a) = .ok (.h168Enc (a.extractLsb' 0 8))) ∧
  h168Enc Config.hw 0x00 = 0x1515 ∧ h168Enc Config.hw 0xA5 = 0x8C73

/-- R112 (the table's values are assumption 9): H168.DEC answers the byte whose low nibble decodes bits 7:0 and whose
high nibble decodes bits 15:8, each as H84.DEC does, sentinel included; nothing else changes. -/
def Obligations.H168DecAnswersTheTwoNibbles : Prop :=
  (∀ (s : State) (p : PairWord), ∃ b : Byte,
    exec (.h168Dec p) s = .next { s with log := s.log ++ [.wrapper s.req (b.setWidth 16)] } ∧
    b.extractLsb' 0 4 = h84Dec Config.hw (p.extractLsb' 0 8) ∧
    b.extractLsb' 4 4 = h84Dec Config.hw (p.extractLsb' 8 8)) ∧
  (∀ u, portLevel u .decByte = .decByte (h168Dec Config.hw u.decPair)) ∧
  (∀ a, decode (mkReq 0x7 a) = .ok (.h168Dec a)) ∧
  h168Dec Config.hw 0x8C73 = 0xA5 ∧ h168Dec Config.hw 0x8C72 = 0xA5 ∧ h168Dec Config.hw 0x1501 = 0x0F

/-- R113 (the table's values are assumption 9, its second and third clauses the spec's decision D9): H168.SYN answers
Uncorrectable if either half is, else Corrected if either half is, else Valid, by the rule's bit equations; nothing else
changes. -/
def Obligations.H168SynAnswersTheWorseClass : Prop :=
  (∀ (s : State) (p : PairWord), ∃ c : WordClass,
    exec (.h168Syn p) s = .next { s with log := s.log ++ [.wrapper s.req ((classBits c).setWidth 16)] } ∧
    (c = .uncorrectable ↔
      h84Syn Config.hw (p.extractLsb' 0 8) = .uncorrectable ∨ h84Syn Config.hw (p.extractLsb' 8 8) = .uncorrectable) ∧
    (c = .valid ↔ h84Syn Config.hw (p.extractLsb' 0 8) = .valid ∧ h84Syn Config.hw (p.extractLsb' 8 8) = .valid) ∧
    (let cl := classBits (h84Syn Config.hw (p.extractLsb' 0 8))
     let ch := classBits (h84Syn Config.hw (p.extractLsb' 8 8))
     let unc := cl.getLsbD 1 || ch.getLsbD 1
     let cor := !unc && (cl.getLsbD 0 || ch.getLsbD 0)
     classBits c = BitVec.ofBool unc ++ BitVec.ofBool cor)) ∧
  (∀ u, portLevel u .decClass = .decClass (h168Syn Config.hw u.decPair)) ∧
  (∀ a, decode (mkReq 0x8 a) = .ok (.h168Syn a)) ∧
  h168Syn Config.hw 0x8C73 = .valid ∧ h168Syn Config.hw 0x8C72 = .corrected ∧ h168Syn Config.hw 0x1501 = .uncorrectable

/-- R114, items 1 to 4, for EVERY configuration with an admissible table: one flipped bit in each half is corrected, two
in a half are detected, and the unit computes what the `hamming_84_*` units would on the halves. -/
def Obligations.PairErrorsCorrectedHalfByHalf : Prop :=
  ∀ C : Config, C.h84EncTable.Good → C.h84Sentinel = 0xF →
    (∀ b, h168Dec C (h168Enc C b) = b ∧ h168Syn C (h168Enc C b) = .valid) ∧
    (∀ b e, popcount (pairLo e) ≤ 1 → popcount (pairHi e) ≤ 1 →
      h168Dec C (h168Enc C b ^^^ e) = b ∧ h168Syn C (h168Enc C b ^^^ e) = if e = 0 then .valid else .corrected) ∧
    (∀ b e, popcount (pairLo e) = 2 →
      h168Syn C (h168Enc C b ^^^ e) = .uncorrectable ∧ lowNibble (h168Dec C (h168Enc C b ^^^ e)) = 0xF) ∧
    (∀ b e, popcount (pairHi e) = 2 →
      h168Syn C (h168Enc C b ^^^ e) = .uncorrectable ∧ highNibble (h168Dec C (h168Enc C b ^^^ e)) = 0xF) ∧
    (∀ p, h168Dec C p = h84Dec C (pairHi p) ++ h84Dec C (pairLo p)) ∧
    ∀ b, h168Enc C b = h84Enc C (highNibble b) ++ h84Enc C (lowNibble b)

/-- R114, item 5 (the table is assumption 9): the image of H168.ENC, and the classes of all 65536 pairs. -/
def Obligations.PairClassCounts : Prop :=
  (∀ p, (∃ b, h168Enc Config.hw b = p) ↔
    isCodeword Config.hw.h84EncTable (pairLo p) = true ∧ isCodeword Config.hw.h84EncTable (pairHi p) = true) ∧
  (Finset.univ.filter fun p : PairWord => h168Syn Config.hw p = .valid).card = 256 ∧
  (Finset.univ.filter fun p : PairWord => h168Syn Config.hw p = .corrected).card = 20480 ∧
  (Finset.univ.filter fun p : PairWord => h168Syn Config.hw p = .uncorrectable).card = 44800

/-! ### The biased BCD units -/

/-- R122 (the constant 17 is assumption 10, the spec's correction of the printed 11): BCD.ENC answers `(t << 4) + u +
17` for `t = v div 10` and `u = v mod 10`, which is below 256 for every operand, and for 0 to 99 is the word with
nibbles `t + 1` and `u + 1`; nothing else changes. -/
def Obligations.BcdEncAnswersTheBiasedDigits : Prop :=
  (∀ (s : State) (v : Payload), ∃ w : Byte,
    exec (.bcdEnc v) s = .next { s with log := s.log ++ [.wrapper s.req (w.setWidth 16)] } ∧
    w.toNat = (v.toNat / 10) * 16 + v.toNat % 10 + 17 ∧
    (v.toNat ≤ 99 → (w.extractLsb' 4 4).toNat = v.toNat / 10 + 1 ∧ (w.extractLsb' 0 4).toNat = v.toNat % 10 + 1)) ∧
  (∀ u, portLevel u .bcdWord = .bcdWord (bcdEnc Config.hw u.bcdValue)) ∧
  (∀ a, decode (mkReq 0x9 a) = .ok (.bcdEnc (a.extractLsb' 0 7))) ∧
  bcdEnc Config.hw 0 = 0x11 ∧ bcdEnc Config.hw 99 = 0xAA ∧ bcdEnc Config.hw 9 = 0x1A ∧
  bcdEnc Config.hw 100 = 0xB1 ∧ bcdEnc Config.hw 127 = 0xD8 ∧ bcdEnc Config.hw 59 = 0x6A

/-- R123: BCD.DEC answers the exact integer `h * 10 + l - 11` in nine bits of two's complement, sign-extended; it is
negative for exactly twelve words, at most 154, in 0 to 99 for 160 words of which 100 are well-formed, not injective, and
its low eight bits are it modulo 256; nothing else changes. -/
def Obligations.BcdDecAnswersTheExactInteger : Prop :=
  (∀ (s : State) (w : Byte), ∃ r : BitVec 9,
    exec (.bcdDec w) s = .next { s with log := s.log ++ [.wrapper s.req (r.signExtend 16)] } ∧
    r.toInt = ((w.toNat / 16 * 10 + w.toNat % 16 : Nat) : Int) - 11 ∧
    (r.toInt < 0 ↔ w.toNat ≤ 0x0A ∨ w = 0x10) ∧ -11 ≤ r.toInt ∧ r.toInt ≤ 154 ∧
    ((r.setWidth 8).toNat : Int) = r.toInt % 256) ∧
  (∀ u, portLevel u .bcdValue = .bcdValue (bcdDec Config.hw u.bcdWord)) ∧
  (∀ a, decode (mkReq 0xA a) = .ok (.bcdDec (a.extractLsb' 0 8))) ∧
  ((List.range 256).countP fun k =>
    decide (0 ≤ (bcdDec Config.hw (BitVec.ofNat 8 k)).toInt ∧ (bcdDec Config.hw (BitVec.ofNat 8 k)).toInt ≤ 99)) = 160 ∧
  ((List.range 256).countP fun k => bcdWellFormed (BitVec.ofNat 8 k) &&
    decide (0 ≤ (bcdDec Config.hw (BitVec.ofNat 8 k)).toInt ∧ (bcdDec Config.hw (BitVec.ofNat 8 k)).toInt ≤ 99)) = 100 ∧
  bcdDec Config.hw 0x00 = 0b111110101 ∧ (bcdDec Config.hw 0xFF).toInt = 154 ∧
  (bcdDec Config.hw 0x0B).toInt = 0 ∧ (bcdDec Config.hw 0x11).toInt = 0 ∧ (bcdDec Config.hw 0xB0).toInt = 99 ∧
  (bcdDec Config.hw 0xAA).toInt = 99 ∧ (bcdDec Config.hw 0x1B).toInt = 10 ∧ (bcdDec Config.hw 0x21).toInt = 10 ∧
  (bcdDec Config.hw 0x6A).toInt = 59

/-- R124 (the encoder's constant is assumption 10): the five laws of the BCD operations. -/
def Obligations.BcdLaws : Prop :=
  (∀ v, (bcdDec Config.hw (bcdEnc Config.hw v)).toInt = v.toNat) ∧
  (∀ w, (∃ v : Payload, (bcdDec Config.hw w).toInt = v.toNat ∧ bcdEnc Config.hw v = w) ↔
    1 ≤ (lowNibble w).toNat ∧ (lowNibble w).toNat ≤ 10 ∧ 1 ≤ (highNibble w).toNat ∧ (highNibble w).toNat ≤ 13 ∧
      (bcdDec Config.hw w).toInt ≤ 127) ∧
  (∀ w, bcdWellFormed w = true ↔ ∃ v : Payload, v.toNat ≤ 99 ∧ bcdEnc Config.hw v = w) ∧
  (∀ v v', v.toNat < v'.toNat → (bcdEnc Config.hw v).toNat < (bcdEnc Config.hw v').toNat) ∧
  (∀ r : Int, (∃ w, (bcdDec Config.hw w).toInt = r) ↔ -11 ≤ r ∧ r ≤ 154)

/-- R122, 90_conflicts.md C2: with the decoder's bias of eleven, 17 is the only encoder bias from 0 to 255 for which every
value from 0 to 99 survives the round trip. -/
def Obligations.OnlyBiasSeventeenRoundTrips : Prop :=
  ∀ C : Config, C.bcdDecBias = 11 → C.bcdEncBias < 256 →
    ((∀ v : Payload, v.toNat ≤ 99 → (bcdDec C (bcdEnc C v)).toInt = v.toNat) ↔ C.bcdEncBias = 17)

/-! ### The tables and their construction -/

/-- R130, R131: `TM(n, p0)` has `2^n` entries and entry `i` is `p0` exclusive-or the parity of the weight of `i`. -/
def Obligations.DoublingGivesTheParityOfTheIndex : Prop :=
  ∀ (n : Nat) (p0 : Bool), (tm n p0).length = 2 ^ n ∧
    ∀ i, i < 2 ^ n → (tm n p0)[i]? = some (p0 ^^ odd (BitVec.ofNat n i))

/-- R132 and R133, with the closed form R131 the spec derives: the parity table is `TM(7, 1)`, the correctable-error
mask is `TM(8, 1)`, and both are one less the parity of the index. -/
def Obligations.ParityMasksAreTheDoubledSequences : Prop :=
  parTableBuilt = tm 7 true ∧ parTableBuilt.length = 128 ∧
  (∀ v : Payload, parTableBuilt[v.toNat]? = some (!odd v) ∧ parTable v = BitVec.ofBool (!odd v)) ∧
  h84CorBuilt = tm 8 true ∧ h84CorBuilt.length = 256 ∧
  ∀ w : Byte, h84CorBuilt[w.toNat]? = some (!odd w) ∧ h84Cor w = BitVec.ofBool (!odd w)

/-- R134: clearing the code-words in `TM(8, 0)` gives the uncorrectable-error mask, for EVERY table; when the table is
SECDED each of the sixteen assignments clears an entry that was 1, and 112 ones remain. -/
def Obligations.UncorrectableMaskIsTheClearedSequence : Prop :=
  ∀ T : H84Table,
    (h84UncBuilt T).length = 256 ∧ (∀ w : Byte, (h84UncBuilt T)[w.toNat]?.map BitVec.ofBool = some (h84Unc T w)) ∧
    (T.Secded → (∀ n, (tm 8 false)[(T.entry n).toNat]? = some true) ∧ (h84UncBuilt T).count true = 112)

/-- R135: the table built by the 144 assignments is the one H84.DEC reads, for EVERY SECDED table and sentinel. -/
def Obligations.BuiltDecodeTableIsTheOneRead : Prop :=
  ∀ (T : H84Table) (sentinel : Nibble), T.Secded →
    (h84DecBuilt T sentinel).length = 256 ∧
    ∀ w : Byte, (h84DecBuilt T sentinel)[w.toNat]? = some (h84DecTable T sentinel w)

/-! ### Sequence pseudo-operations -/

/-- R141 (that performing a form is one step is assumption 7, R175 leaving it to the modeller): the element-wise forms:
performing one is a next state that records the results, same length, same order, element `i` from element `i` alone. -/
def Obligations.ElementwiseFormsMapTheOperation : Prop :=
  ∀ (s : State) (rest : List Action),
    (∀ xs, step { s with script := .sequence (.parEnc xs) :: rest } = .next { s with
      script := rest, log := s.log ++ [.sequence (.parEnc xs) (.done (.words (xs.map parEnc)))] }) ∧
    (∀ xs, step { s with script := .sequence (.parDec xs) :: rest } = .next { s with
      script := rest, log := s.log ++ [.sequence (.parDec xs) (.done (.payloads (xs.map parDec)))] }) ∧
    (∀ xs, step { s with script := .sequence (.parChk xs) :: rest } = .next { s with
      script := rest, log := s.log ++ [.sequence (.parChk xs) (.done (.bits (xs.map parChk)))] }) ∧
    (∀ xs, step { s with script := .sequence (.h84Enc xs) :: rest } = .next { s with
      script := rest, log := s.log ++ [.sequence (.h84Enc xs) (.done (.words (xs.map (h84Enc Config.hw))))] }) ∧
    (∀ xs, step { s with script := .sequence (.h84Dec xs) :: rest } = .next { s with
      script := rest, log := s.log ++ [.sequence (.h84Dec xs) (.done (.nibbles (xs.map (h84Dec Config.hw))))] }) ∧
    (∀ xs, step { s with script := .sequence (.h84Syn xs) :: rest } = .next { s with
      script := rest, log := s.log ++ [.sequence (.h84Syn xs) (.done (.classes (xs.map (h84Syn Config.hw))))] }) ∧
    (∀ xs, step { s with script := .sequence (.bcdEnc xs) :: rest } = .next { s with
      script := rest, log := s.log ++ [.sequence (.bcdEnc xs) (.done (.words (xs.map (bcdEnc Config.hw))))] }) ∧
    (∀ xs, step { s with script := .sequence (.bcdDec xs) :: rest } = .next { s with
      script := rest, log := s.log ++ [.sequence (.bcdDec xs) (.done (.values (xs.map (bcdDec Config.hw))))] })

/-- R142 (the order of the pairs is the spec's decision D17): H168.ENC.SEQ gives the interleaved sequence of twice the
length, byte `i`'s code-words at `2i` and `2i + 1`. -/
def Obligations.SequenceEncodingInterleavesThePairs : Prop :=
  ∀ bs : List Byte, ∃ ws : List Byte, runSeq (.h168Enc bs) = .done (.words ws) ∧ ws.length = 2 * bs.length ∧
    ∀ i b, bs[i]? = some b →
      ws[2 * i]? = some (Config.hw.h84EncTable.entry (b.extractLsb' 0 4)) ∧
      ws[2 * i + 1]? = some (Config.hw.h84EncTable.entry (b.extractLsb' 4 4))

/-- R143, R144 (that no partial result is given is the spec's decision D16): for an even length H168.DEC.SEQ and
H168.SYN.SEQ give half as many results, result `i` from elements `2i` (low half) and `2i + 1` (high half); for an odd
length they raise `InvalidInputLength` of it. -/
def Obligations.SequenceDecodingPairsTheNeighbours : Prop :=
  ∀ ws : List Byte,
    (ws.length % 2 = 0 → ∃ (bs : List Byte) (cs : List WordClass),
      runSeq (.h168Dec ws) = .done (.words bs) ∧ runSeq (.h168Syn ws) = .done (.classes cs) ∧
      bs.length = ws.length / 2 ∧ cs.length = ws.length / 2 ∧
      ∀ i lo hi, ws[2 * i]? = some lo → ws[2 * i + 1]? = some hi →
        bs[i]? = some (h168Dec Config.hw (hi ++ lo)) ∧ cs[i]? = some (h168Syn Config.hw (hi ++ lo))) ∧
    (ws.length % 2 ≠ 0 →
      runSeq (.h168Dec ws) = .failed (.invalidInputLength ws.length) ∧
      runSeq (.h168Syn ws) = .failed (.invalidInputLength ws.length))

/-- R153 (that the run goes on is assumption 6, that a form is one step is assumption 7, R175 leaving it to the
modeller): `InvalidInputLength` is raised by H168.DEC.SEQ and H168.SYN.SEQ on an odd length, carrying that length and
the code 1, and by nothing else; performing the failing form is still a next state, in which only that failure is
recorded. -/
def Obligations.InvalidInputLengthOnOddLengthsOnly : Prop :=
  (∀ (q : SeqOp) (f : Fault), runSeq q = .failed f ↔
    ∃ ws : List Byte, (q = .h168Dec ws ∨ q = .h168Syn ws) ∧ ws.length % 2 = 1 ∧ f = .invalidInputLength ws.length) ∧
  (∀ q, failureCode (runSeq q) = if q.wf then 0 else 1) ∧
  ∀ (s : State) (q : SeqOp) (rest : List Action),
    step { s with script := .sequence q :: rest } =
      .next { s with script := rest, log := s.log ++ [.sequence q (runSeq q)] }

/-- R142, R143: decoding what H168.ENC.SEQ encodes gives the bytes back, every one of them Valid. -/
def Obligations.SequenceRoundTrip : Prop :=
  ∀ bs : List Byte, ∃ ws : List Byte, runSeq (.h168Enc bs) = .done (.words ws) ∧
    runSeq (.h168Dec ws) = .done (.words bs) ∧
    runSeq (.h168Syn ws) = .done (.classes (List.replicate bs.length .valid))

/-- R145: the elements, or pairs, are independent: the result of a concatenation is the concatenation of the results. -/
def Obligations.SequenceElementsAreIndependent : Prop :=
  (∀ xs ys : List Byte, ∃ r t : List Byte, runSeq (.h168Enc xs) = .done (.words r) ∧
    runSeq (.h168Enc ys) = .done (.words t) ∧ runSeq (.h168Enc (xs ++ ys)) = .done (.words (r ++ t))) ∧
  (∀ xs ys : List Byte, xs.length % 2 = 0 → ys.length % 2 = 0 →
    ∃ (r t : List Byte) (c d : List WordClass),
      runSeq (.h168Dec xs) = .done (.words r) ∧ runSeq (.h168Dec ys) = .done (.words t) ∧
      runSeq (.h168Dec (xs ++ ys)) = .done (.words (r ++ t)) ∧
      runSeq (.h168Syn xs) = .done (.classes c) ∧ runSeq (.h168Syn ys) = .done (.classes d) ∧
      runSeq (.h168Syn (xs ++ ys)) = .done (.classes (c ++ d))) ∧
  (∀ xs ys : List Byte, ∃ r t : List Nibble, runSeq (.h84Dec xs) = .done (.nibbles r) ∧
    runSeq (.h84Dec ys) = .done (.nibbles t) ∧ runSeq (.h84Dec (xs ++ ys)) = .done (.nibbles (r ++ t)))

/-- R68, R175 (that the form is one step is assumption 7): a sequence form that does not fail returns what the host
assembles from the wrapper's responses to the single operations it expands into, issued one after another from any
state. -/
def Obligations.SequenceFormEqualsItsExpansion : Prop :=
  ∀ (q : SeqOp) (ops : List Instr) (s : State) (rest : List Action), expand q = some ops →
    ∃ (t : State) (ys : List RspWord),
      Sys2Proof.core.run ops.length { s with script := ops.map (fun i => .request (encode i)) ++ rest } = .next t ∧
      t.script = rest ∧ t.inputs = s.inputs ∧ ys.length = ops.length ∧
      t.log = s.log ++ List.zipWith (fun i y => .wrapper (encode i) y) ops ys ∧
      runSeq q = .done (assemble q ys)

/-! ### The machine as a whole -/

/-- R150 for the single operations; that no step ends in a fault, the failure of an odd-length sequence form being
recorded and the run going on, is assumption 6, and where a refusal falls is assumption 5: no operation and no step ends
in a fault; every operation is answered in every state; and the only refusals are those of a reserved op code, under the
op code of the request made or of the one on `req` that is read. -/
def Obligations.NothingFaults : Prop :=
  (∀ (i : Instr) (s : State), ∃ t, exec i s = .next t) ∧
  (∀ (s : State) (f : Fault), step s ≠ .fault f) ∧
  ∀ (s : State) (r : Refusal), step s = .refused r → ∃ (w : ReqWord) (rest : List Action),
    (s.script = .request w :: rest ∨ s.script = .readRsp :: rest ∧ s.req = w) ∧
    0xB ≤ (reqOp w).toNat ∧ r = .reservedOp (reqOp w)

/-- R10: every step keeps the invariant that each response received is the one the rules give for what was asked. -/
def Obligations.ConsistentLogIsKept : Prop :=
  ∀ s t : State, s.Consistent → step s = .next t → t.Consistent

/-- The state after power-up has the invariants, and asks and answers nothing (R31, R170; the input levels are
assumption 3, the host contract is assumption 19). -/
def Obligations.ResetStateMeetsTheInvariants : Prop :=
  State.reset.Consistent ∧ State.reset.Good ∧ State.reset.KeepsContract ∧ State.reset.script = [] ∧ State.reset.log = []

/-- R176: a step takes back no response: the log only grows, by one exchange at most, and with nothing asked a step
changes nothing (assumption 4). -/
def Obligations.ResponsesAreNeverTakenBack : Prop :=
  (∀ s t : State, step s = .next t → t.log = s.log ∨ ∃ e, t.log = s.log ++ [e]) ∧
  ∀ s : State, s.script = [] → step s = .next s

/-- R10: every operation is answered, and the same operand gives the same result at every time, in the wrapper as on the
unit's own port, whatever was computed before, whatever the other ports carry and whatever the ignored bits of the request
are. -/
def Obligations.SameOperandSameResult : Prop :=
  ∀ (s t : State) (w w' : ReqWord) (i : Instr) (l m : List Action),
    s.script = .request w :: l → t.script = .request w' :: m → decode w = .ok i → decode w' = .ok i →
      ∃ (s' t' : State) (out : Output), step s = .next s' ∧ step t = .next t' ∧
        s'.log = s.log ++ [.wrapper w (responseWord out)] ∧ t'.log = t.log ++ [.wrapper w' (responseWord out)] ∧
        ∀ (u : UnitInputs) (o : OutPort), portOperation u o = i → portLevel u o = out

/-- R31: every output port carries the function of its input ports throughout: an action that drives no unit's input port
(a request, driving `req`, reading a port, a sequence form) moves no level on a unit's ports (assumption 8: the units used
directly are copies of the wrapper's). -/
def Obligations.RequestsMoveNoUnitPort : Prop :=
  ∀ (s t : State) (a : Action) (rest : List Action), s.script = a :: rest → a.drivesUnit = false → step s = .next t →
    t.script = rest ∧ t.inputs = s.inputs ∧ ∀ o, portLevel t.inputs o = portLevel s.inputs o

/-- R176 (for a host that keeps the contract of assumption 19): two runs with the same requests, presented operands and
sequence forms, in whatever order, give the same exchanges. -/
def Obligations.OrderOfRequestsDoesNotMatter : Prop :=
  ∀ (s : State) (p q : List Action), p.Perm q → (∀ a ∈ p, a.selfContained = true ∧ a.keepsContract = true) →
    ∃ t u : State,
      Sys2Proof.core.run p.length { s with script := p } = .next t ∧
      Sys2Proof.core.run q.length { s with script := q } = .next u ∧
      ∃ x y, t.log = s.log ++ x ∧ u.log = s.log ++ y ∧ x.Perm y

/-- R10, R30: nothing computed before can be observed: two runs of the same requests, presented operands and sequence
forms, from states that differ in everything else, receive the same responses. -/
def Obligations.HistoryCannotBeObserved : Prop :=
  ∀ (s t s' : State) (k : Nat), s.script = t.script → (∀ a ∈ s.script, a.selfContained = true) →
    Sys2Proof.core.run k s = .next s' →
    ∃ (t' : State) (new : List Exchange),
      Sys2Proof.core.run k t = .next t' ∧ s'.log = s.log ++ new ∧ t'.log = t.log ++ new

/-- R160 (what counts as keeping the contract is assumption 19): a host that issues no reserved op and no odd-length
decoding is answered for ever, and no failure is recorded. -/
def Obligations.HostThatKeepsTheContractIsAnswered : Prop :=
  ∀ (s : State) (k : Nat), s.KeepsContract → s.Good →
    ∃ t, Sys2Proof.core.run k s = .next t ∧ t.KeepsContract ∧ t.Good ∧ t.script = s.script.drop k

/-! ### One host action at a time, on the units and on the wrapper's ports -/

/-- R33: presenting an operand to a unit and receiving the result is one step, for every operation in every state. The
operand stays on the unit's input port (assumption 18, the model's choice), the result is recorded, nothing else
changes; and the step comes to what driving the port and then reading it in two steps comes to. -/
def Obligations.PresentingAnOperandGivesTheResult : Prop :=
  ∀ (s : State) (i : Instr) (rest : List Action),
    step { s with script := .present i :: rest } =
      .next { s with
        inputs := s.inputs.drive (inputOf i), script := rest, log := s.log ++ [.unit i (unitOutput i)] } ∧
    Sys2Proof.core.run 1 { s with script := .present i :: rest } =
      Sys2Proof.core.run 2 { s with script := .drive (inputOf i) :: .read (outputOf i) :: rest }

/-- R32, R160: the wrapper's ports driven and read apart. Driving `req` moves `req` and nothing else; reading `rsp` under a
request that selects an operation records the response of the level on `req`, the extension of the unit's result, and
changes nothing else, however often it is read; and the two in a row come to what issuing the request comes to. -/
def Obligations.RspReadAfterDrivingReqGivesTheResult : Prop :=
  ∀ (s : State) (w : ReqWord) (rest : List Action),
    step { s with script := .driveReq w :: rest } = .next { s with req := w, script := rest } ∧
    ∀ i : Instr, decode w = .ok i →
      (s.req = w → step { s with script := .readRsp :: rest } =
        .next { s with script := rest, log := s.log ++ [.wrapper w (responseWord (unitOutput i))] }) ∧
      Sys2Proof.core.run 2 { s with script := .driveReq w :: .readRsp :: rest } =
        .next { s with
          req := w, script := rest, log := s.log ++ [.wrapper w (responseWord (unitOutput i))] } ∧
      Sys2Proof.core.run 2 { s with script := .driveReq w :: .readRsp :: rest } =
        step { s with script := .request w :: rest }

/-- R22: reading an output port of a unit used directly records the level it carries, a function of the unit's input port,
and changes nothing else; driving an input port moves that level and nothing else. -/
def Obligations.ReadingAPortChangesNothing : Prop :=
  ∀ (s : State) (rest : List Action),
    (∀ o : OutPort, step { s with script := .read o :: rest } =
      .next { s with script := rest, log := s.log ++ [.unit (portOperation s.inputs o) (portLevel s.inputs o)] }) ∧
    ∀ d : Drive, step { s with script := .drive d :: rest } = .next { s with inputs := s.inputs.drive d, script := rest }
end

