-- ==== Sys2Proof/Laws/Bits.lean ====
section
/-! SUPPORT. Weight, parity and distance (00_scope.md R9), and the fields of requests, bytes and pairs. -/

namespace Sys2Proof

/-- The parity of a count of an exclusive or. -/
theorem countP_xor_mod_two (f g : Nat → Bool) (l : List Nat) :
    l.countP (fun i => f i ^^ g i) % 2 = (l.countP f + l.countP g) % 2 := by
  induction l with
  | nil => rfl
  | cons a l ih =>
    simp only [List.countP_cons]
    cases f a <;> cases g a <;> simp <;> omega

/-- A count of an exclusive or is at most the sum of the counts. -/
theorem countP_xor_le (f g : Nat → Bool) (l : List Nat) :
    l.countP (fun i => f i ^^ g i) ≤ l.countP f + l.countP g := by
  induction l with
  | nil => simp
  | cons a l ih =>
    simp only [List.countP_cons]
    cases f a <;> cases g a <;> simp <;> omega

theorem getLsbD_xor_fun {n : Nat} (a b : BitVec n) :
    (a ^^^ b).getLsbD = fun i => a.getLsbD i ^^ b.getLsbD i := funext fun _ => BitVec.getLsbD_xor

theorem popcount_xor_mod_two {n : Nat} (a b : BitVec n) :
    popcount (a ^^^ b) % 2 = (popcount a + popcount b) % 2 := by
  simpa only [popcount, getLsbD_xor_fun] using countP_xor_mod_two a.getLsbD b.getLsbD (List.range n)

theorem popcount_xor_le {n : Nat} (a b : BitVec n) : popcount (a ^^^ b) ≤ popcount a + popcount b := by
  simpa only [popcount, getLsbD_xor_fun] using countP_xor_le a.getLsbD b.getLsbD (List.range n)

/-- Parity is additive over exclusive or. -/
@[simp] theorem odd_xor {n : Nat} (a b : BitVec n) : odd (a ^^^ b) = (odd a ^^ odd b) := by
  have h := popcount_xor_mod_two a b
  simp only [odd, h, Nat.add_mod (popcount a)]
  rcases Nat.mod_two_eq_zero_or_one (popcount a) with ha | ha <;>
    rcases Nat.mod_two_eq_zero_or_one (popcount b) with hb | hb <;> simp [ha, hb]

theorem popcount_le {n : Nat} (v : BitVec n) : popcount v ≤ n := by
  simpa [popcount] using List.countP_le_length (p := v.getLsbD) (l := List.range n)

theorem popcount_eq_zero_iff {n : Nat} (v : BitVec n) : popcount v = 0 ↔ v = 0#n := by
  constructor
  · intro h
    have h' : ∀ i, i < n → v.getLsbD i = false := by simpa [popcount, List.countP_eq_zero] using h
    exact BitVec.eq_of_getLsbD_eq fun i hi => by simp [h' i hi]
  · rintro rfl
    simp [popcount]

theorem hd_comm {n : Nat} (a b : BitVec n) : hd a b = hd b a := by simp [hd, BitVec.xor_comm]

@[simp] theorem hd_self {n : Nat} (a : BitVec n) : hd a a = 0 := by simp [hd, popcount_eq_zero_iff]

theorem hd_eq_zero_iff {n : Nat} (a b : BitVec n) : hd a b = 0 ↔ a = b := by
  rw [hd, popcount_eq_zero_iff]
  constructor
  · intro h
    have h2 : a ^^^ b ^^^ b = 0#n ^^^ b := by rw [h]
    simpa [BitVec.xor_assoc] using h2
  · rintro rfl
    simp

/-- The triangle inequality. -/
theorem hd_triangle {n : Nat} (a b c : BitVec n) : hd a c ≤ hd a b + hd b c := by
  have h : a ^^^ c = (a ^^^ b) ^^^ (b ^^^ c) := by
    rw [BitVec.xor_assoc, ← BitVec.xor_assoc b, BitVec.xor_self, BitVec.zero_xor]
  simpa [hd, h] using popcount_xor_le (a ^^^ b) (b ^^^ c)

/-- The parity of a distance. -/
theorem hd_mod_two {n : Nat} (a b : BitVec n) : hd a b % 2 = (popcount a + popcount b) % 2 :=
  popcount_xor_mod_two a b

theorem odd_eq_true_iff {n : Nat} (v : BitVec n) : odd v = true ↔ popcount v % 2 = 1 := by simp [odd]

theorem odd_eq_false_iff {n : Nat} (v : BitVec n) : odd v = false ↔ popcount v % 2 = 0 := by
  rw [odd, beq_eq_false_iff_ne]
  omega

/-! ### Fields -/

/-- The low part of a concatenation. -/
theorem extractLsb'_append_low {m n : Nat} (x : BitVec m) (y : BitVec n) : (x ++ y).extractLsb' 0 n = y :=
  BitVec.eq_of_getLsbD_eq fun i hi => by simp [BitVec.getLsbD_append, hi]

/-- The high part of a concatenation. -/
theorem extractLsb'_append_high {m n : Nat} (x : BitVec m) (y : BitVec n) : (x ++ y).extractLsb' n m = x :=
  BitVec.eq_of_getLsbD_eq fun i hi => by simp [BitVec.getLsbD_append, hi]

@[simp] theorem reqOp_mkReq (op : BitVec 4) (a : BitVec 16) : reqOp (mkReq op a) = op := extractLsb'_append_high op a

@[simp] theorem reqArg_mkReq (op : BitVec 4) (a : BitVec 16) : reqArg (mkReq op a) = a := extractLsb'_append_low op a

namespace Machine

@[simp] theorem pairLo_mkPair (lo hi : Byte) : pairLo (mkPair lo hi) = lo := extractLsb'_append_low hi lo

@[simp] theorem pairHi_mkPair (lo hi : Byte) : pairHi (mkPair lo hi) = hi := extractLsb'_append_high hi lo

@[simp] theorem classOfBits_classBits (c : WordClass) : classOfBits (classBits c) = some c := by cases c <;> rfl

end Machine

end Sys2Proof
end

