-- ==== Sys2Proof/Laws/Decode.lean ====
section
/-! SUPPORT. What the decoder can answer. -/

namespace Sys2Proof

/-- A request word is its two fields. -/
theorem mkReq_reqOp_reqArg (w : ReqWord) : mkReq (reqOp w) (reqArg w) = w :=
  BitVec.eq_of_getLsbD_eq fun i hi => by
    simp only [mkReq, reqOp, reqArg, BitVec.getLsbD_append, BitVec.getLsbD_extractLsb']
    split
    · simp_all
    · have : 16 + (i - 16) = i := by omega
      simp [this]; omega

/-- The low slice of a zero-extended operand is the operand. -/
theorem operandSlice_setWidth {k : Nat} (v : BitVec k) (h : k ≤ 16) : operandSlice k (v.setWidth 16) = v :=
  BitVec.eq_of_getLsbD_eq fun i hi => by
    simp [operandSlice, hi]
    omega

/-- The decoder rejects the reserved op codes, under their own number, and nothing else (30_encoding.md R65). -/
theorem decode_eq_error_iff (w : ReqWord) (e : DecodeReject) :
    decode w = .error e ↔ 0xB ≤ (reqOp w).toNat ∧ e = .reservedOp (reqOp w) := by
  have h16 := (reqOp w).isLt
  simp only [decode]
  generalize hn : (reqOp w).toNat = n at h16
  interval_cases n <;> simp [eq_comm]

/-- A request with a defined op code decodes (R62). -/
theorem decode_of_reqWf {w : ReqWord} (h : reqWf w = true) : ∃ i, decode w = .ok i := by
  cases hd : decode w with
  | ok i => exact ⟨i, rfl⟩
  | error e =>
    have h1 := ((decode_eq_error_iff w e).mp hd).1
    simp only [reqWf, opDefined, decide_eq_true_eq] at h
    omega

/-- A request that decodes has the op code of the operation (R62). -/
theorem reqOp_of_decode {w : ReqWord} {i : Instr} (h : decode w = .ok i) : reqOp w = i.opcode := by
  simp only [decode] at h
  split at h <;> cases h
  all_goals
    rename_i hn
    exact BitVec.eq_of_toNat_eq hn

end Sys2Proof
end

