-- ==== Sys2Proof/Laws/State.lean ====
section
/-! SUPPORT. One lemma per field per update of State. -/

namespace Sys2Proof.Machine.State

variable (s : State)

@[simp] theorem setReq_req (w : ReqWord) : (s.setReq w).req = w := rfl
@[simp] theorem setReq_inputs (w : ReqWord) : (s.setReq w).inputs = s.inputs := rfl
@[simp] theorem setReq_script (w : ReqWord) : (s.setReq w).script = s.script := rfl
@[simp] theorem setReq_log (w : ReqWord) : (s.setReq w).log = s.log := rfl

@[simp] theorem setScript_req (l : List Action) : (s.setScript l).req = s.req := rfl
@[simp] theorem setScript_inputs (l : List Action) : (s.setScript l).inputs = s.inputs := rfl
@[simp] theorem setScript_script (l : List Action) : (s.setScript l).script = l := rfl
@[simp] theorem setScript_log (l : List Action) : (s.setScript l).log = s.log := rfl

@[simp] theorem record_req (e : Exchange) : (s.record e).req = s.req := rfl
@[simp] theorem record_inputs (e : Exchange) : (s.record e).inputs = s.inputs := rfl
@[simp] theorem record_script (e : Exchange) : (s.record e).script = s.script := rfl
@[simp] theorem record_log (e : Exchange) : (s.record e).log = s.log ++ [e] := rfl

@[simp] theorem drive_req (d : Drive) : (s.drive d).req = s.req := rfl
@[simp] theorem drive_inputs (d : Drive) : (s.drive d).inputs = s.inputs.drive d := rfl
@[simp] theorem drive_script (d : Drive) : (s.drive d).script = s.script := rfl
@[simp] theorem drive_log (d : Drive) : (s.drive d).log = s.log := rfl

/-- Two states with the same fields are one state. -/
theorem ext_fields {s t : State} (hr : s.req = t.req) (hi : s.inputs = t.inputs) (hs : s.script = t.script)
    (hl : s.log = t.log) : s = t := by
  cases s; cases t; simp_all

end Sys2Proof.Machine.State

namespace Sys2Proof.Machine.UnitInputs

variable (u : UnitInputs)

@[simp] theorem drive_encValue (v : Payload) : u.drive (.encValue v) = { u with encValue := v } := rfl
@[simp] theorem drive_parWord (w : Byte) : u.drive (.parWord w) = { u with parWord := w } := rfl
@[simp] theorem drive_nibble (n : Nibble) : u.drive (.nibble n) = { u with nibble := n } := rfl
@[simp] theorem drive_decCw (w : Byte) : u.drive (.decCw w) = { u with decCw := w } := rfl
@[simp] theorem drive_synCw (w : Byte) : u.drive (.synCw w) = { u with synCw := w } := rfl
@[simp] theorem drive_encByte (b : Byte) : u.drive (.encByte b) = { u with encByte := b } := rfl
@[simp] theorem drive_decPair (p : PairWord) : u.drive (.decPair p) = { u with decPair := p } := rfl
@[simp] theorem drive_bcdValue (v : Payload) : u.drive (.bcdValue v) = { u with bcdValue := v } := rfl
@[simp] theorem drive_bcdWord (w : Byte) : u.drive (.bcdWord w) = { u with bcdWord := w } := rfl

end Sys2Proof.Machine.UnitInputs
end

