-- ==== Sys2Proof/Laws/Ops.lean ====
section
/-! SUPPORT. What each shared operation can do. -/

namespace Sys2Proof.Machine

/-- `respond` answers a next state whatever the state, and only records one response. -/
@[simp] theorem respond_eq (o : Output) (s : State) : respond o s = .next (s.record (.wrapper s.req (responseWord o))) := rfl

/-- Everything an operation does: it answers a next state whatever the state, and only records its unit's result as the
response. -/
theorem exec_eq (i : Instr) (s : State) : exec i s = .next (s.record (.wrapper s.req (responseWord (unitOutput i)))) := by
  cases i <;> rfl

/-- The level on `rsp` for a request that selects an operation. -/
theorem rspLevel_of_ok {w : ReqWord} {i : Instr} (h : decode w = .ok i) :
    rspLevel w = .ok (responseWord (unitOutput i)) := by
  simp [rspLevel, h, Except.map]

/-- A read of `rsp` under a request that selects an operation runs it. -/
theorem readResponse_of_ok {s : State} {i : Instr} (h : decode s.req = .ok i) : readResponse s = exec i s := by
  simp [readResponse, h]

/-- A read of `rsp` under a request that selects none is refused. -/
theorem readResponse_of_error {s : State} {e : DecodeReject} (h : decode s.req = .error e) :
    readResponse s = .refused (refusalOf e) := by
  simp [readResponse, h]

/-- A read of a unit's port records its level and changes nothing else. -/
@[simp] theorem readPort_eq (o : OutPort) (s : State) :
    readPort o s = s.record (.unit (portOperation s.inputs o) (portLevel s.inputs o)) := rfl

/-- The port an operation's result leaves on performs that operation, once its input port is driven with the operand. -/
@[simp] theorem portOperation_drive (u : UnitInputs) (i : Instr) :
    portOperation (u.drive (inputOf i)) (outputOf i) = i := by
  cases i <;> rfl

/-- That port carries the operation's result. -/
@[simp] theorem portLevel_drive (u : UnitInputs) (i : Instr) :
    portLevel (u.drive (inputOf i)) (outputOf i) = unitOutput i := by
  simp [portLevel]

/-- Presenting an operand leaves it on its port and records the result, and changes nothing else. -/
@[simp] theorem presentOperand_eq (i : Instr) (s : State) :
    presentOperand i s = (s.drive (inputOf i)).record (.unit i (unitOutput i)) := by
  simp [presentOperand]

@[simp] theorem perform_request (w : ReqWord) (s : State) : perform (.request w) s = readResponse (s.setReq w) := rfl
@[simp] theorem perform_driveReq (w : ReqWord) (s : State) : perform (.driveReq w) s = .next (s.setReq w) := rfl
@[simp] theorem perform_readRsp (s : State) : perform .readRsp s = readResponse s := rfl
@[simp] theorem perform_present (i : Instr) (s : State) : perform (.present i) s = .next (presentOperand i s) := rfl
@[simp] theorem perform_drive (d : Drive) (s : State) : perform (.drive d) s = .next (s.drive d) := rfl
@[simp] theorem perform_read (o : OutPort) (s : State) : perform (.read o) s = .next (readPort o s) := rfl
@[simp] theorem perform_sequence (q : SeqOp) (s : State) :
    perform (.sequence q) s = .next (s.record (.sequence q (runSeq q))) := rfl

/-- A request that selects an operation is answered with its result. -/
theorem perform_request_of_ok {w : ReqWord} {i : Instr} (h : decode w = .ok i) (s : State) :
    perform (.request w) s = .next ((s.setReq w).record (.wrapper w (responseWord (unitOutput i)))) :=
  (readResponse_of_ok (s := s.setReq w) h).trans (exec_eq i _)

/-- So is a read of `rsp` under it. -/
theorem perform_readRsp_of_ok {s : State} {i : Instr} (h : decode s.req = .ok i) :
    perform .readRsp s = .next (s.record (.wrapper s.req (responseWord (unitOutput i)))) :=
  (readResponse_of_ok h).trans (exec_eq i s)

/-- A read of `rsp` that answers a next state has recorded one response, that of the request on `req`. -/
theorem readResponse_cases {s t : State} (h : readResponse s = .next t) :
    ∃ i, decode s.req = .ok i ∧ t = s.record (.wrapper s.req (responseWord (unitOutput i))) := by
  simp only [readResponse, exec_eq] at h
  split at h
  · rename_i i hi
    exact ⟨i, hi, (Host.Outcome.next.inj h).symm⟩
  · cases h

/-- All that an action of the host can do, if it is answered. -/
theorem perform_cases {a : Action} {s t : State} (h : perform a s = .next t) :
    (∃ w i, a = .request w ∧ decode w = .ok i ∧
      t = (s.setReq w).record (.wrapper w (responseWord (unitOutput i)))) ∨
    (∃ w, a = .driveReq w ∧ t = s.setReq w) ∨
    (∃ i, a = .readRsp ∧ decode s.req = .ok i ∧ t = s.record (.wrapper s.req (responseWord (unitOutput i)))) ∨
    (∃ i, a = .present i ∧ t = (s.drive (inputOf i)).record (.unit i (unitOutput i))) ∨
    (∃ d, a = .drive d ∧ t = s.drive d) ∨
    (∃ o, a = .read o ∧ t = readPort o s) ∨
    ∃ q, a = .sequence q ∧ t = s.record (.sequence q (runSeq q)) := by
  cases a with
  | request w =>
    obtain ⟨i, hi, ht⟩ := readResponse_cases h
    exact .inl ⟨w, i, rfl, hi, ht⟩
  | driveReq w => exact .inr (.inl ⟨w, rfl, (Host.Outcome.next.inj h).symm⟩)
  | readRsp =>
    obtain ⟨i, hi, ht⟩ := readResponse_cases h
    exact .inr (.inr (.inl ⟨i, rfl, hi, ht⟩))
  | present i =>
    exact .inr (.inr (.inr (.inl ⟨i, rfl, (Host.Outcome.next.inj h).symm.trans (presentOperand_eq i s)⟩)))
  | drive d => exact .inr (.inr (.inr (.inr (.inl ⟨d, rfl, (Host.Outcome.next.inj h).symm⟩))))
  | read o => exact .inr (.inr (.inr (.inr (.inr (.inl ⟨o, rfl, (Host.Outcome.next.inj h).symm⟩)))))
  | sequence q => exact .inr (.inr (.inr (.inr (.inr (.inr ⟨q, rfl, (Host.Outcome.next.inj h).symm⟩)))))

/-- A read of `rsp` never faults. -/
theorem readResponse_ne_fault (s : State) (f : Fault) : readResponse s ≠ .fault f := by
  simp only [readResponse, exec_eq]
  split <;> simp

/-- A read of `rsp` that is refused was of a request that selects no operation. -/
theorem readResponse_refused {s : State} {r : Refusal} (h : readResponse s = .refused r) :
    ∃ e, decode s.req = .error e ∧ r = refusalOf e := by
  simp only [readResponse, exec_eq] at h
  split at h
  · cases h
  · rename_i e he
    exact ⟨e, he, (Host.Outcome.refused.inj h).symm⟩

/-- All that can be refused: a request, or a read of `rsp`, under a word that selects no operation. -/
theorem perform_refused {a : Action} {s : State} {r : Refusal} (h : perform a s = .refused r) :
    ∃ w e, (a = .request w ∨ a = .readRsp ∧ s.req = w) ∧ decode w = .error e ∧ r = refusalOf e := by
  cases a with
  | request w =>
    obtain ⟨e, he, hr⟩ := readResponse_refused h
    exact ⟨w, e, .inl rfl, he, hr⟩
  | readRsp =>
    obtain ⟨e, he, hr⟩ := readResponse_refused h
    exact ⟨s.req, e, .inr ⟨rfl, rfl⟩, he, hr⟩
  | driveReq w => cases h
  | present i => cases h
  | drive d => cases h
  | read o => cases h
  | sequence q => cases h

/-- No action faults. -/
theorem perform_ne_fault (a : Action) (s : State) (f : Fault) : perform a s ≠ .fault f := by
  cases a with
  | request w => exact readResponse_ne_fault _ f
  | readRsp => exact readResponse_ne_fault _ f
  | driveReq w => simp
  | present i => simp
  | drive d => simp
  | read o => simp
  | sequence q => simp

/-- A step with a script performs its first action on the rest. -/
theorem step_of_cons {s : State} {a : Action} {rest : List Action} (h : s.script = a :: rest) :
    step s = perform a (s.setScript rest) := by
  simp [step, performNext, h]

/-- A step with no script changes nothing. -/
theorem step_of_nil {s : State} (h : s.script = []) : step s = .next s := by
  simp [step, performNext, h]

/-- No step taken. -/
@[simp] theorem run_zero (s : State) : Sys2Proof.core.run 0 s = .next s := rfl

/-- A run goes on from a step's next state. -/
theorem run_succ_of_next {s t : State} (h : step s = .next t) (k : Nat) :
    Sys2Proof.core.run (k + 1) s = Sys2Proof.core.run k t := by
  have h' : Sys2Proof.core.step s = .next t := h
  simp [Host.Core.run, h']

/-- A run ends at a refused step. -/
theorem run_succ_of_refused {s : State} {r : Refusal} (h : step s = .refused r) (k : Nat) :
    Sys2Proof.core.run (k + 1) s = .refused r := by
  have h' : Sys2Proof.core.step s = .refused r := h
  simp [Host.Core.run, h']

/-- A run of one step is that step. -/
theorem run_one (s : State) : Sys2Proof.core.run 1 s = step s := by
  have h : Sys2Proof.core.step s = step s := rfl
  simp only [Host.Core.run, h]
  split <;> simp_all

/-- The length check of R143 and R144, failing. -/
theorem checkedPairs_of_odd {ws : List Byte} (h : ws.length % 2 = 1) (f : List PairWord → SeqResult) :
    checkedPairs ws f = .failed (.invalidInputLength ws.length) := by
  simp [checkedPairs, h]

/-- The length check of R143 and R144, passing. -/
theorem checkedPairs_of_even {ws : List Byte} (h : ws.length % 2 = 0) (f : List PairWord → SeqResult) :
    checkedPairs ws f = .done (f (pairsOf ws)) := by
  simp [checkedPairs, h]

end Sys2Proof.Machine
end

