-- ==== Sys2Proof/Laws/PerInstr.lean ====
section
/-! SUPPORT. Statements about the instruction as syntax, one lemma per constructor. -/

namespace Sys2Proof.Laws.OpField

/-- The `op` field of an operation's request word is its op code, and that is a defined one (30_encoding.md R62, R65). -/
def Statement (i : Instr) : Prop := reqOp (encode i) = i.opcode ∧ i.wf = true

theorem parEnc (v : Payload) : Statement (.parEnc v) := ⟨reqOp_mkReq _ _, rfl⟩
theorem parDec (w : Byte) : Statement (.parDec w) := ⟨reqOp_mkReq _ _, rfl⟩
theorem parChk (w : Byte) : Statement (.parChk w) := ⟨reqOp_mkReq _ _, rfl⟩
theorem h84Enc (n : Nibble) : Statement (.h84Enc n) := ⟨reqOp_mkReq _ _, rfl⟩
theorem h84Dec (w : Byte) : Statement (.h84Dec w) := ⟨reqOp_mkReq _ _, rfl⟩
theorem h84Syn (w : Byte) : Statement (.h84Syn w) := ⟨reqOp_mkReq _ _, rfl⟩
theorem h168Enc (b : Byte) : Statement (.h168Enc b) := ⟨reqOp_mkReq _ _, rfl⟩
theorem h168Dec (p : PairWord) : Statement (.h168Dec p) := ⟨reqOp_mkReq _ _, rfl⟩
theorem h168Syn (p : PairWord) : Statement (.h168Syn p) := ⟨reqOp_mkReq _ _, rfl⟩
theorem bcdEnc (v : Payload) : Statement (.bcdEnc v) := ⟨reqOp_mkReq _ _, rfl⟩
theorem bcdDec (w : Byte) : Statement (.bcdDec w) := ⟨reqOp_mkReq _ _, rfl⟩

end Sys2Proof.Laws.OpField
end

