-- ==== Sys2Proof/Laws/Tables.lean ====
section
/-! SUPPORT. What the table reads of Machine/Tables.lean and the classes of Machine/Flags.lean say. -/

namespace Sys2Proof.Machine

@[simp] theorem mem_nibbles (n : Nibble) : n ∈ nibbles := by
  revert n; decide

theorem nibbles_nodup : nibbles.Nodup := by decide

/-- R29, R100: membership in the code. -/
theorem isCodeword_eq_true_iff (T : H84Table) (w : Byte) : isCodeword T w = true ↔ ∃ n, T.entry n = w := by
  simp [isCodeword]

/-- R97. -/
@[simp] theorem mem_near (T : H84Table) (w : Byte) (n : Nibble) : n ∈ near T w ↔ hd w (T.entry n) ≤ 1 := by
  simp [near]

theorem near_nodup (T : H84Table) (w : Byte) : (near T w).Nodup := nibbles_nodup.filter _

/-- R98, first case, for a word with exactly one near code-word. -/
theorem h84DecTable_of_near_iff (T : H84Table) (d n : Nibble) (w : Byte)
    (h : ∀ m, hd w (T.entry m) ≤ 1 ↔ m = n) : h84DecTable T d w = n := by
  have hn : near T w = [n] :=
    List.perm_singleton.mp
      ((List.perm_ext_iff_of_nodup (near_nodup T w) (List.nodup_singleton n)).mpr fun m => by simp [h m])
  simp [h84DecTable, hn]

/-- R98, second case. -/
theorem h84DecTable_of_far (T : H84Table) (d : Nibble) (w : Byte) (h : ∀ m, 1 < hd w (T.entry m)) :
    h84DecTable T d w = d := by
  have hn : near T w = [] := List.eq_nil_iff_forall_not_mem.mpr fun m => by simpa using h m
  simp [h84DecTable, hn]

theorem h84Cor_eq_one_iff (w : Byte) : h84Cor w = 1 ↔ odd w = false := by
  cases h : odd w <;> simp [h84Cor, h]

theorem h84Unc_eq_one_iff (T : H84Table) (w : Byte) :
    h84Unc T w = 1 ↔ odd w = true ∧ isCodeword T w = false := by
  cases h : odd w <;> cases h' : isCodeword T w <;> simp [h84Unc, h, h']

/-- R100, by the weight and the membership of the word. -/
theorem classify_eq (T : H84Table) (w : Byte) :
    classify T w = if odd w = false then .corrected else if isCodeword T w = true then .valid else .uncorrectable := by
  cases h : odd w <;> cases h' : isCodeword T w <;> simp [classify, classOfMasks, h84Unc, h84Cor, h, h']

end Sys2Proof.Machine
end

