-- ==== Sys2Proof/Tests/Slice0.lean ====
section
/-! SUPPORT. The model's own tests. Expected values are the spec's: spec/95_test_vectors.md, the listings of
spec/10_state.md, and the examples of the operation rules; and, for each statement with hypotheses, a witness. -/

namespace Sys2Proof.Tests

open Sys2Proof.Machine

/-- Power-up with one request placed as the next action. -/
def asked (w : Nat) : State := State.reset.withFetchWord 24 w

/-- Power-up with one action to perform. -/
def doing (a : Action) : State := State.reset.setScript [a]

/-- The exchanges recorded at the end of a step. -/
def logAfter : Host.Outcome State Fault Refusal → Option (List Exchange)
  | .next s => some s.log
  | _ => none

/-- The refusal a step ends in. -/
def refusalAfter : Host.Outcome State Fault Refusal → Option Refusal
  | .refused r => some r
  | _ => none

/-- The `rsp` of one request from power-up. -/
def rspOf (w : Nat) : Option RspWord :=
  match logAfter (step (asked w)) with
  | some [.wrapper _ y] => some y
  | _ => none

/-! ### Well-formedness: an ill-formed term for each check (R65, R143, R144) -/

theorem test_reserved_request_is_ill_formed : reqWf 0xB0000 = false ∧ reqWf 0xF1234 = false ∧ reqWf 0xAFFFF = true := by decide
theorem test_odd_decoding_sequence_is_ill_formed :
    (SeqOp.h168Dec [0x73]).wf = false ∧ (SeqOp.h168Syn [0x01, 0x01, 0x01]).wf = false ∧ (SeqOp.h168Dec []).wf = true ∧
      (SeqOp.parDec [0x73]).wf = true := by decide
theorem test_no_operation_is_ill_formed : (Instr.bcdDec 0xFF).wf = true ∧ opDefined 0xB = false := by decide
theorem test_changed_table_is_not_secded : ¬ H84Table.Secded (Config.hw.h84EncTable.set 1 0x14) := by decide +kernel

/-! ### Decoding: words written out bit by bit from the table's `encoding` strings (R62), `x` bits set in some -/

theorem test_decode_par_enc : decode 0b00001111111111000001 = .ok (.parEnc 0b1000001) := by decide
theorem test_decode_par_dec : decode 0b00010000000011000001 = .ok (.parDec 0b11000001) := by decide
theorem test_decode_par_chk : decode 0b00101111111100101101 = .ok (.parChk 0b00101101) := by decide
theorem test_decode_h84_enc : decode 0b00111111111111110110 = .ok (.h84Enc 0b0110) := by decide
theorem test_decode_h84_dec : decode 0b01001111111111101011 = .ok (.h84Dec 0b11101011) := by decide
theorem test_decode_h84_syn : decode 0b01010000000000000001 = .ok (.h84Syn 0b00000001) := by decide
theorem test_decode_h168_enc : decode 0b01101111111110100101 = .ok (.h168Enc 0b10100101) := by decide
theorem test_decode_h168_dec : decode 0b01111000110001110011 = .ok (.h168Dec 0b1000110001110011) := by decide
theorem test_decode_h168_syn : decode 0b10000001010100000001 = .ok (.h168Syn 0b0001010100000001) := by decide
theorem test_decode_bcd_enc : decode 0b10011111111110111011 = .ok (.bcdEnc 0b0111011) := by decide
theorem test_decode_bcd_dec : decode 0b10101111111101101010 = .ok (.bcdDec 0b01101010) := by decide
theorem test_decode_reserved : decode 0b10110000000000000000 = .error (.reservedOp 0b1011) := by decide
theorem test_decode_not_twenty_bits :
    decodeNat 0x100000 = .error (.notTwentyBits 0x100000) ∧ decodeTableWord 24 0x100000 = none ∧
      decodeTableWord 24 0xB0000 = none ∧ decodeTableWord 24 0x600A5 = some (.h168Enc 0xA5) := by decide
/-- The aliases of R67. -/
theorem test_source_name_of_class : (Instr.h84Syn 0).sourceName = some "classify" ∧ (Instr.h168Syn 0).sourceName = none := by decide

/-! ### One step per request, from the wrapper words of 95_test_vectors.md -/

theorem test_par_enc_ignores_high_bits : rspOf 0x0FFC1 = some 0x00C1 := by decide
theorem test_par_enc_program_2 : rspOf 0x00069 = some 0x00E9 := by decide
theorem test_par_dec_program_2 : rspOf 0x100ED = some 0x006D := by decide
theorem test_par_chk_program_2 : rspOf 0x200ED = some 0x0001 ∧ rspOf 0x200A1 = some 0x0000 := by decide
theorem test_h84_enc_ignores_high_bits : rspOf 0x3FFF0 = some 0x0015 := by decide
theorem test_h84_dec_program_4 : rspOf 0x400EB = some 0x000F ∧ rspOf 0x40017 = some 0x0000 := by decide
theorem test_h84_syn_program_4 : rspOf 0x50015 = some 0x0000 ∧ rspOf 0x500EB = some 0x0001 ∧ rspOf 0x50001 = some 0x0002 := by decide
theorem test_h168_enc_program_1 : rspOf 0x600A5 = some 0x8C73 := by decide
theorem test_h168_dec_program_1 : rspOf 0x78C63 = some 0x00A5 ∧ rspOf 0x78C70 = some 0x00AF := by decide
theorem test_h168_syn_program_1 : rspOf 0x88C63 = some 0x0001 ∧ rspOf 0x80101 = some 0x0002 := by decide
theorem test_bcd_enc_program_3 : rspOf 0x9003B = some 0x006A ∧ rspOf 0x9FF80 = some 0x0011 := by decide
theorem test_bcd_dec_program_3 : rspOf 0xA0018 = some 0x0007 ∧ rspOf 0xA0000 = some 0xFFF5 ∧ rspOf 0xA00FF = some 0x009A := by decide
theorem test_reserved_op_is_refused :
    refusalAfter (step (asked 0xB0000)) = some (.reservedOp 0xB) ∧ refusalAfter (step (asked 0xF1234)) = some (.reservedOp 0xF) := by decide
theorem test_idle_step_records_nothing : logAfter (step State.reset) = some [] := by decide

/-! ### Direct use of the units, and sequence forms (95_test_vectors.md 2.6) -/

theorem test_read_unit_port :
    logAfter (step ((doing (.read .synClass)).drive (.synCw 0x01))) = some [.unit (.h84Syn 0x01) (.synClass .uncorrectable)] := by decide
/-- R33 and the example of 42_hamming84.md R98: an operand presented to a unit, answered in one step. -/
theorem test_present_operand :
    logAfter (step (doing (.present (.h84Dec 0xEB)))) = some [.unit (.h84Dec 0xEB) (.nibble 0xF)] := by decide
/-- R32 and the example of 43_hamming168.md R111: `rsp` follows the level on `req`. -/
theorem test_read_rsp :
    logAfter (step ((doing .readRsp).setReq 0x600A5)) = some [.wrapper 0x600A5 0x8C73] := by decide
theorem test_word_port_feeds_two_outputs :
    portLevel (State.reset.drive (.parWord 0x41)).inputs .decValue = .decValue 0x41 ∧
      portLevel (State.reset.drive (.parWord 0x41)).inputs .hasError = .hasError 1 := by decide
theorem test_h84_sequences :
    runSeq (.h84Enc [0x0, 0xF, 0x7]) = .done (.words [0x15, 0xEA, 0x2F]) ∧
      runSeq (.h84Dec [0x15, 0xEB, 0x01]) = .done (.nibbles [0x0, 0xF, 0xF]) ∧
      runSeq (.h84Syn [0x15, 0xEB, 0x01]) = .done (.classes [.valid, .corrected, .uncorrectable]) := by decide
theorem test_h168_sequences :
    runSeq (.h168Enc [0xA5, 0x00]) = .done (.words [0x73, 0x8C, 0x15, 0x15]) ∧
      runSeq (.h168Dec [0x72, 0x8D, 0x01, 0x15]) = .done (.words [0xA5, 0x0F]) ∧
      runSeq (.h168Syn [0x72, 0x8D, 0x01, 0x15]) = .done (.classes [.corrected, .uncorrectable]) := by decide
theorem test_bcd_and_parity_sequences :
    runSeq (.bcdEnc [23, 59, 7]) = .done (.words [0x34, 0x6A, 0x18]) ∧
      runSeq (.bcdDec [0x34, 0x6A, 0x18]) = .done (.values [23, 59, 7]) ∧
      runSeq (.parChk [0xC8, 0xED, 0xA1]) = .done (.bits [0, 1, 0]) := by decide
/-- R146: the empty sequence is a legal operand of every form and gives the empty sequence. -/
theorem test_empty_sequences :
    runSeq (.parChk []) = .done (.bits []) ∧ runSeq (.h168Dec []) = .done (.words []) ∧
      runSeq (.h168Syn []) = .done (.classes []) ∧ runSeq (.h168Enc []) = .done (.words []) := by decide
/-- The length check comes first, and the host goes on: the step is answered and the failure recorded. -/
theorem test_odd_length_is_recorded :
    logAfter (step (doing (.sequence (.h168Syn [0x01, 0x01, 0x01])))) =
        some [.sequence (.h168Syn [0x01, 0x01, 0x01]) (.failed (.invalidInputLength 3))] ∧
      failureCode (runSeq (.h168Dec [0x73])) = 1 := by decide
theorem test_expansion_of_program_5 :
    (expand (.h168Dec [0x73, 0x8C, 0x15, 0x15])).map (·.map encode) = some [0x78C73, 0x71515] ∧
      expand (.h168Dec [0x73, 0x8C, 0x15]) = none := by decide

/-! ### The listings of the spec -/

/-- 10_state.md R25, 32 entries a row. -/
def listedParTable : List Nat :=
  [0b10010110011010010110100110010110,
   0b01101001100101101001011001101001,
   0b01101001100101101001011001101001,
   0b10010110011010010110100110010110]
theorem test_par_table_listing :
    ∀ k < 128, (listedParTable.getD (k / 32) 0 >>> (31 - k % 32)) % 2 = (parTable (BitVec.ofNat 7 k)).toNat := by decide +kernel

/-- 10_state.md R27, a hexadecimal digit per entry, a row per high nibble. -/
def listedH84Dec : List Nat :=
  [0x1F11F01FF21FAFF7,
   0xF01F00F06FFBF03F,
   0xFC1F4FF76FF7F777,
   0x6FF5F0DF666F6FF7,
   0xF21F4FF922F2F23F,
   0x8FF5F03FF23F3F33,
   0x4FF5444FF2FF4FF7,
   0xF5554FF56FF5FE3F,
   0xFC1FAFF9AFFBAAAF,
   0x8FFBF0DFFBBBAFFB,
   0xCCFCFCDFFCFFAFF7,
   0xFCDFDFDD6FFBFEDF,
   0x8FF9F999F2FFAFF9,
   0x888F8FF98FFBFE3F,
   0xFCFF4FF9FFFFFEFF,
   0x8FF5FEDFFEFFEEFE]
theorem test_h84_dec_listing :
    ∀ k < 256, (listedH84Dec.getD (k / 16) 0 >>> (4 * (15 - k % 16))) % 16 = (h84Dec Config.hw (BitVec.ofNat 8 k)).toNat := by decide +kernel

/-- 10_state.md R29 with `V`, `C`, `U` as 0, 1, 2: the two bits of the class. -/
def listedClasses : List Nat :=
  [0x1201211221121221,
   0x2112102112212112,
   0x2112122112212110,
   0x1221211201121221,
   0x2112122110212112,
   0x1221211221121201,
   0x1221011221121221,
   0x2110122112212112,
   0x2112122112210112,
   0x1221211221101221,
   0x1021211221121221,
   0x2112120112212112,
   0x1221211021121221,
   0x0112122112212112,
   0x2112122112012112,
   0x1221211221121021]
theorem test_h84_syn_listing :
    ∀ k < 256, (listedClasses.getD (k / 16) 0 >>> (4 * (15 - k % 16))) % 16 = (classBits (h84Syn Config.hw (BitVec.ofNat 8 k))).toNat := by decide +kernel

/-- 95_test_vectors.md 2.1. -/
theorem test_par_enc_listing : (List.range 128).map (fun k => (parEnc (BitVec.ofNat 7 k)).toNat) =
  [0x80, 0x01, 0x02, 0x83, 0x04, 0x85, 0x86, 0x07, 0x08, 0x89, 0x8A, 0x0B, 0x8C, 0x0D, 0x0E, 0x8F,
   0x10, 0x91, 0x92, 0x13, 0x94, 0x15, 0x16, 0x97, 0x98, 0x19, 0x1A, 0x9B, 0x1C, 0x9D, 0x9E, 0x1F,
   0x20, 0xA1, 0xA2, 0x23, 0xA4, 0x25, 0x26, 0xA7, 0xA8, 0x29, 0x2A, 0xAB, 0x2C, 0xAD, 0xAE, 0x2F,
   0xB0, 0x31, 0x32, 0xB3, 0x34, 0xB5, 0xB6, 0x37, 0x38, 0xB9, 0xBA, 0x3B, 0xBC, 0x3D, 0x3E, 0xBF,
   0x40, 0xC1, 0xC2, 0x43, 0xC4, 0x45, 0x46, 0xC7, 0xC8, 0x49, 0x4A, 0xCB, 0x4C, 0xCD, 0xCE, 0x4F,
   0xD0, 0x51, 0x52, 0xD3, 0x54, 0xD5, 0xD6, 0x57, 0x58, 0xD9, 0xDA, 0x5B, 0xDC, 0x5D, 0x5E, 0xDF,
   0xE0, 0x61, 0x62, 0xE3, 0x64, 0xE5, 0xE6, 0x67, 0x68, 0xE9, 0xEA, 0x6B, 0xEC, 0x6D, 0x6E, 0xEF,
   0x70, 0xF1, 0xF2, 0x73, 0xF4, 0x75, 0x76, 0xF7, 0xF8, 0x79, 0x7A, 0xFB, 0x7C, 0xFD, 0xFE, 0x7F] := by decide +kernel

/-- 95_test_vectors.md 2.5. -/
theorem test_bcd_enc_listing : (List.range 128).map (fun k => (bcdEnc Config.hw (BitVec.ofNat 7 k)).toNat) =
  [0x11, 0x12, 0x13, 0x14, 0x15, 0x16, 0x17, 0x18, 0x19, 0x1A, 0x21, 0x22, 0x23, 0x24, 0x25, 0x26,
   0x27, 0x28, 0x29, 0x2A, 0x31, 0x32, 0x33, 0x34, 0x35, 0x36, 0x37, 0x38, 0x39, 0x3A, 0x41, 0x42,
   0x43, 0x44, 0x45, 0x46, 0x47, 0x48, 0x49, 0x4A, 0x51, 0x52, 0x53, 0x54, 0x55, 0x56, 0x57, 0x58,
   0x59, 0x5A, 0x61, 0x62, 0x63, 0x64, 0x65, 0x66, 0x67, 0x68, 0x69, 0x6A, 0x71, 0x72, 0x73, 0x74,
   0x75, 0x76, 0x77, 0x78, 0x79, 0x7A, 0x81, 0x82, 0x83, 0x84, 0x85, 0x86, 0x87, 0x88, 0x89, 0x8A,
   0x91, 0x92, 0x93, 0x94, 0x95, 0x96, 0x97, 0x98, 0x99, 0x9A, 0xA1, 0xA2, 0xA3, 0xA4, 0xA5, 0xA6,
   0xA7, 0xA8, 0xA9, 0xAA, 0xB1, 0xB2, 0xB3, 0xB4, 0xB5, 0xB6, 0xB7, 0xB8, 0xB9, 0xBA, 0xC1, 0xC2,
   0xC3, 0xC4, 0xC5, 0xC6, 0xC7, 0xC8, 0xC9, 0xCA, 0xD1, 0xD2, 0xD3, 0xD4, 0xD5, 0xD6, 0xD7, 0xD8] := by decide +kernel

/-- 95_test_vectors.md 2.5. -/
theorem test_bcd_dec_listing : (List.range 256).map (fun k => (bcdDec Config.hw (BitVec.ofNat 8 k)).toInt) =
  [-11, -10, -9, -8, -7, -6, -5, -4, -3, -2, -1, 0, 1, 2, 3, 4,
   -1, 0, 1, 2, 3, 4, 5, 6, 7, 8, 9, 10, 11, 12, 13, 14,
   9, 10, 11, 12, 13, 14, 15, 16, 17, 18, 19, 20, 21, 22, 23, 24,
   19, 20, 21, 22, 23, 24, 25, 26, 27, 28, 29, 30, 31, 32, 33, 34,
   29, 30, 31, 32, 33, 34, 35, 36, 37, 38, 39, 40, 41, 42, 43, 44,
   39, 40, 41, 42, 43, 44, 45, 46, 47, 48, 49, 50, 51, 52, 53, 54,
   49, 50, 51, 52, 53, 54, 55, 56, 57, 58, 59, 60, 61, 62, 63, 64,
   59, 60, 61, 62, 63, 64, 65, 66, 67, 68, 69, 70, 71, 72, 73, 74,
   69, 70, 71, 72, 73, 74, 75, 76, 77, 78, 79, 80, 81, 82, 83, 84,
   79, 80, 81, 82, 83, 84, 85, 86, 87, 88, 89, 90, 91, 92, 93, 94,
   89, 90, 91, 92, 93, 94, 95, 96, 97, 98, 99, 100, 101, 102, 103, 104,
   99, 100, 101, 102, 103, 104, 105, 106, 107, 108, 109, 110, 111, 112, 113, 114,
   109, 110, 111, 112, 113, 114, 115, 116, 117, 118, 119, 120, 121, 122, 123, 124,
   119, 120, 121, 122, 123, 124, 125, 126, 127, 128, 129, 130, 131, 132, 133, 134,
   129, 130, 131, 132, 133, 134, 135, 136, 137, 138, 139, 140, 141, 142, 143, 144,
   139, 140, 141, 142, 143, 144, 145, 146, 147, 148, 149, 150, 151, 152, 153, 154] := by decide +kernel

/-- 95_test_vectors.md 1.7 (45_tablegen.md R130). -/
theorem test_doubling : tm 3 true = [true, false, false, true, false, true, true, false] ∧
    tm 3 false = [false, true, true, false, true, false, false, true] := by decide

/-- 95_test_vectors.md 2.4. -/
theorem test_built_tables : (tm 8 false)[0x15]? = some true ∧ (h84UncBuilt Config.hw.h84EncTable)[0x15]? = some false ∧
    (h84UncBuilt Config.hw.h84EncTable)[0x01]? = some true ∧ (h84DecBuilt Config.hw.h84EncTable 0xF)[0x63]? = some 0x5 := by decide +kernel

/-! ### Witnesses: states and operands that meet the hypotheses of the statements together -/

theorem witness_StepPerformsTheDecodedOperation :
    (asked 0x600A5).script = .request 0x600A5 :: [] ∧ decode 0x600A5 = .ok (.h168Enc 0xA5) ∧ (Instr.h168Enc 0xA5).wf = true := by decide
theorem witness_PlacedWordIsPerformedNext : decodeTableWord 24 0xA00FF = some (.bcdDec 0xFF) := by decide
theorem witness_DecodeInvertsEncode : decode 0x9FF80 = .ok (.bcdEnc 0) := by decide
theorem witness_IgnoredOperandBitsDoNotMatter :
    decode 0x3FFF0 = .ok (.h84Enc 0) ∧ (0x3FFF0 : ReqWord) &&& (Instr.h84Enc 0).usedMask = 0x30000 &&& (Instr.h84Enc 0).usedMask := by decide
theorem witness_EachRequestFallsUnderItsOwnRowOnly :
    decode 0xAFFFF = .ok (.bcdDec 0xFF) ∧ decode 0xB0000 = .error (.reservedOp 0xB) := by decide
theorem witness_ReservedRequests_reserved :
    ((asked 0xB0000).script = .request 0xB0000 :: [] ∧ 0xB ≤ (reqOp 0xB0000).toNat) ∧
      ((asked 0xFFFFF).script = .request 0xFFFFF :: [] ∧ 0xB ≤ (reqOp 0xFFFFF).toNat) := by decide
theorem witness_ReservedRequests_defined :
    ((asked 0xAFFFF).script = .request 0xAFFFF :: [] ∧ (reqOp 0xAFFFF).toNat < 0xB) ∧
      ((asked 0x00000).script = .request 0x00000 :: [] ∧ (reqOp 0x00000).toNat < 0xB) := by decide
theorem witness_ReservedRequests_read :
    ((doing .readRsp).setReq 0xB0000).script = .readRsp :: [] ∧ ((doing .readRsp).setReq 0xB0000).req = 0xB0000 ∧
      0xB ≤ (reqOp 0xB0000).toNat ∧ ((doing .readRsp).setReq 0xAFFFF).script = .readRsp :: [] ∧
      ((doing .readRsp).setReq 0xAFFFF).req = 0xAFFFF ∧ (reqOp 0xAFFFF).toNat < 0xB := by decide
theorem witness_ReservedRequests_driven : (doing (.driveReq 0xB0000)).script = .driveReq 0xB0000 :: [] := by decide
theorem witness_RspReadAfterDrivingReqGivesTheResult :
    decode 0xAFFFF = .ok (.bcdDec 0xFF) ∧ (State.reset.setReq 0xAFFFF).req = 0xAFFFF := by decide
theorem witness_WrapperAgreesWithTheUnits : decode 0x88C63 = .ok (.h168Syn 0x8C63) := by decide
theorem witness_DrivingOnePortMovesOnlyWhatItFeeds :
    OutPort.cw ≠ .encWord ∧ OutPort.cw ≠ .decValue ∧ OutPort.cw ≠ .hasError ∧ OutPort.encWord ≠ .cw ∧ OutPort.cw ≠ .nibble ∧
      OutPort.cw ≠ .synClass ∧ OutPort.cw ≠ .encPair ∧ OutPort.cw ≠ .decByte ∧ OutPort.cw ≠ .decClass ∧
      OutPort.cw ≠ .bcdWord ∧ OutPort.cw ≠ .bcdValue := by decide
theorem witness_ParityLaws :
    (0 < 8 ∧ 7 < 8) ∧ parChk 0x41 = 1 ∧ parEnc 0x7F = parEnc 0x7F := by decide
theorem witness_secded : Config.hw.h84EncTable.Secded := by decide +kernel
theorem witness_good : Config.hw.h84EncTable.Good := by decide +kernel
theorem witness_EverySecdedTablePartitionsTheWords :
    isCodeword Config.hw.h84EncTable 0x15 = true ∧ odd (0x00 : Byte) = false ∧
      odd (0x01 : Byte) = true ∧ isCodeword Config.hw.h84EncTable 0x01 = false := by decide
theorem witness_SentinelDoesNotByItselfSignalAnError :
    (0xEA : Byte) ∈ [(0xEA : Byte), 0xEB, 0xE8, 0xEE, 0xE2, 0xFA, 0xCA, 0xAA, 0x6A] ∧
      (0x6A : Byte) ∈ [(0xEA : Byte), 0xEB, 0xE8, 0xEE, 0xE2, 0xFA, 0xCA, 0xAA, 0x6A] := by decide
theorem witness_EncodeTableIsAdmissible : (0 : Nibble) ≠ 0xF ∧ (0 : Nibble) ≠ 1 := by decide
theorem witness_SingleErrorsCorrectedDoubleErrorsDetected :
    Config.hw.h84Sentinel = 0xF ∧ popcount (0x81 : Byte) = 2 ∧ popcount (0x07 : Byte) = 3 ∧ popcount (0x17 : Byte) = 4 ∧
      popcount (0x0F : Byte) = 4 := by decide
theorem witness_PairErrorsCorrectedHalfByHalf :
    (popcount (pairLo 0x8001) ≤ 1 ∧ popcount (pairHi 0x8001) ≤ 1) ∧ (popcount (pairLo 0x0000) ≤ 1 ∧ popcount (pairHi 0x0000) ≤ 1) ∧
      popcount (pairLo 0xFF81) = 2 ∧ popcount (pairHi 0x8100) = 2 := by decide
theorem witness_BcdEncAnswersTheBiasedDigits : (99 : Payload).toNat ≤ 99 ∧ (0 : Payload).toNat ≤ 99 := by decide
theorem witness_BcdLaws : (0 : Payload).toNat < (127 : Payload).toNat := by decide
theorem witness_OnlyBiasSeventeenRoundTrips : Config.hw.bcdDecBias = 11 ∧ Config.hw.bcdEncBias < 256 := by decide
theorem witness_DoublingGivesTheParityOfTheIndex : 0 < 2 ^ 0 ∧ 255 < 2 ^ 8 := by decide
theorem witness_SequenceEncodingInterleavesThePairs : ([0xA5, 0x00] : List Byte)[1]? = some 0x00 := by decide
theorem witness_SequenceDecodingPairsTheNeighbours :
    ([0x73, 0x8C] : List Byte).length % 2 = 0 ∧ ([0x73, 0x8C] : List Byte)[2 * 0]? = some 0x73 ∧
      ([0x73, 0x8C] : List Byte)[2 * 0 + 1]? = some 0x8C ∧ ([0x73] : List Byte).length % 2 ≠ 0 := by decide
theorem witness_SequenceElementsAreIndependent : ([] : List Byte).length % 2 = 0 ∧ ([0x15, 0x15] : List Byte).length % 2 = 0 := by decide
theorem witness_SequenceFormEqualsItsExpansion :
    expand (.h168Dec [0x73, 0x8C]) = some [.h168Dec 0x8C73] ∧ expand (.parEnc []) = some [] := by decide
theorem witness_NothingFaults : refusalAfter (step (asked 0xB0000)) = some (.reservedOp 0xB) ∧
    refusalAfter (step ((doing .readRsp).setReq 0xF1234)) = some (.reservedOp 0xF) := by decide

/-- A state that has asked and been answered once, with a next request to make. -/
def answeredOnce : State :=
  { State.reset with
    script := [.request 0x00041, .sequence (.h168Dec [0x73, 0x8C])]
    log := [.wrapper 0x600A5 0x8C73] }

theorem answeredOnce_consistent : answeredOnce.Consistent := by
  intro e he
  obtain rfl : e = .wrapper 0x600A5 0x8C73 := by simpa [answeredOnce] using he
  show rspLevel 0x600A5 = .ok 0x8C73
  decide
theorem answeredOnce_good : answeredOnce.Good := by
  intro e he
  obtain rfl : e = .wrapper 0x600A5 0x8C73 := by simpa [answeredOnce] using he
  rfl
theorem answeredOnce_keepsContract : answeredOnce.KeepsContract := by
  refine ⟨by decide, ?_⟩
  intro a ha
  have : a = .request 0x00041 ∨ a = .sequence (.h168Dec [0x73, 0x8C]) := by simpa [answeredOnce] using ha
  rcases this with rfl | rfl <;> decide
theorem answeredOnce_steps : ∃ t, step answeredOnce = .next t ∧ t.log = [.wrapper 0x600A5 0x8C73, .wrapper 0x00041 0x00C1] :=
  ⟨_, rfl, by decide⟩
theorem witness_ConsistentLogIsKept : answeredOnce.Consistent ∧ ∃ t, step answeredOnce = .next t :=
  ⟨answeredOnce_consistent, answeredOnce_steps.imp fun _ h => h.1⟩
theorem witness_ResponsesAreNeverTakenBack : (∃ t, step answeredOnce = .next t) ∧ State.reset.script = [] :=
  ⟨answeredOnce_steps.imp fun _ h => h.1, rfl⟩
theorem witness_SameOperandSameResult :
    answeredOnce.script = .request 0x00041 :: [.sequence (.h168Dec [0x73, 0x8C])] ∧
      (asked 0x0FFC1).script = .request 0x0FFC1 :: [] ∧ decode 0x00041 = .ok (.parEnc 0x41) ∧ decode 0x0FFC1 = .ok (.parEnc 0x41) :=
  ⟨rfl, by decide, by decide, by decide⟩
theorem witness_RequestsMoveNoUnitPort :
    answeredOnce.script = .request 0x00041 :: [.sequence (.h168Dec [0x73, 0x8C])] ∧
      (Action.request 0x00041).drivesUnit = false ∧ ∃ t, step answeredOnce = .next t :=
  ⟨rfl, rfl, answeredOnce_steps.imp fun _ h => h.1⟩
theorem witness_OrderOfRequestsDoesNotMatter :
    [Action.request 0x00041, .present (.parDec 0xC1)].Perm [.present (.parDec 0xC1), .request 0x00041] ∧
      ∀ a ∈ [Action.request 0x00041, .present (.parDec 0xC1)], a.selfContained = true ∧ a.keepsContract = true :=
  ⟨List.Perm.swap _ _ _, by decide⟩
theorem witness_HistoryCannotBeObserved :
    answeredOnce.script = (State.reset.setScript answeredOnce.script).script ∧
      (∀ a ∈ answeredOnce.script, a.selfContained = true) ∧ ∃ t, Sys2Proof.core.run 2 answeredOnce = .next t :=
  ⟨rfl, by decide, ⟨_, rfl⟩⟩
theorem witness_HostThatKeepsTheContractIsAnswered : answeredOnce.KeepsContract ∧ answeredOnce.Good :=
  ⟨answeredOnce_keepsContract, answeredOnce_good⟩

end Sys2Proof.Tests
end

namespace Sys2Proof.Machine

/-! ### The responses of the host's actions (R10, R33) -/

/-- The response to an action that carries its own operand: a function of the action alone, `none` where the rules give
no response (a reserved op code) or the action leans on a level driven before. -/
def Action.response : Action → Option Exchange
  | .request w => (rspLevel w).toOption.map (.wrapper w)
  | .present i => some (.unit i (unitOutput i))
  | .sequence q => some (.sequence q (runSeq q))
  | .driveReq _ => none
  | .readRsp => none
  | .drive _ => none
  | .read _ => none

theorem response_request_of_ok {w : ReqWord} {i : Instr} (h : decode w = .ok i) :
    (Action.request w).response = some (.wrapper w (responseWord (unitOutput i))) := by
  simp [Action.response, rspLevel_of_ok h, Except.toOption]

theorem response_request_of_error {w : ReqWord} {e : DecodeReject} (h : decode w = .error e) :
    (Action.request w).response = none := by
  simp [Action.response, rspLevel, h, Except.map, Except.toOption]

/-- An action with a response of its own receives it in every state. -/
theorem perform_of_response {a : Action} {e : Exchange} (h : a.response = some e) (s : State) :
    ∃ t, perform a s = .next t ∧ t.script = s.script ∧ t.log = s.log ++ [e] := by
  cases a with
  | request w =>
    cases hd : decode w with
    | ok i =>
      obtain rfl : .wrapper w (responseWord (unitOutput i)) = e :=
        Option.some.inj ((response_request_of_ok hd).symm.trans h)
      exact ⟨_, perform_request_of_ok hd s, rfl, rfl⟩
    | error r => cases (response_request_of_error hd).symm.trans h
  | present i => cases h; exact ⟨_, rfl, rfl, by simp⟩
  | sequence q => cases h; exact ⟨_, rfl, rfl, rfl⟩
  | driveReq w => cases h
  | readRsp => cases h
  | drive d => cases h
  | read o => cases h

/-- A step on such an action receives its response and moves the script on. -/
theorem step_of_response {s : State} {a : Action} {rest : List Action} {e : Exchange} (hs : s.script = a :: rest)
    (h : a.response = some e) : ∃ t, step s = .next t ∧ t.script = rest ∧ t.log = s.log ++ [e] := by
  rw [step_of_cons hs]
  exact perform_of_response h (s.setScript rest)

/-- An action that carries its own operand has a response of its own if it is answered in any state at all. -/
theorem response_isSome_of_perform {a : Action} {s t : State} (ha : a.selfContained = true)
    (h : perform a s = .next t) : a.response.isSome = true := by
  rcases perform_cases h with ⟨w, i, rfl, hi, -⟩ | ⟨w, rfl, -⟩ | ⟨i, rfl, -⟩ | ⟨i, rfl, -⟩ | ⟨d, rfl, -⟩ | ⟨o, rfl, -⟩ |
    ⟨q, rfl, -⟩
  · rw [response_request_of_ok hi]; rfl
  · cases ha
  · cases ha
  · rfl
  · cases ha
  · cases ha
  · rfl

/-- A run that completes begins with a step that answers a next state. -/
theorem run_succ_cases {s t : State} {k : Nat} (h : Sys2Proof.core.run (k + 1) s = .next t) :
    ∃ u, step s = .next u ∧ Sys2Proof.core.run k u = .next t := by
  have hcore : Sys2Proof.core.step s = step s := rfl
  simp only [Host.Core.run, hcore] at h
  split at h
  · exact ⟨_, ‹_›, h⟩
  · cases h
  · cases h

/-- A run over actions with responses of their own completes from every state, and receives exactly those. -/
theorem run_of_responses (k : Nat) (s : State) (h : ∀ a ∈ s.script.take k, a.response.isSome = true) :
    ∃ t, Sys2Proof.core.run k s = .next t ∧ t.script = s.script.drop k ∧
      t.log = s.log ++ (s.script.take k).filterMap Action.response := by
  induction k generalizing s with
  | zero => exact ⟨s, rfl, by simp, by simp⟩
  | succ k ih =>
    cases hs : s.script with
    | nil =>
      obtain ⟨t, hrun, hscript, hlog⟩ := ih s (by simp [hs])
      exact ⟨t, (run_succ_of_next (step_of_nil hs) k).trans hrun, by simpa [hs] using hscript, by simpa [hs] using hlog⟩
    | cons a rest =>
      simp only [hs, List.take_succ_cons, List.forall_mem_cons] at h
      obtain ⟨ha, hrest⟩ := h
      obtain ⟨e, he⟩ := Option.isSome_iff_exists.mp ha
      obtain ⟨u, hu, rfl, hulog⟩ := step_of_response hs he
      obtain ⟨t, hrun, hscript, hlog⟩ := ih u hrest
      exact ⟨t, (run_succ_of_next hu k).trans hrun, by simpa using hscript, by simp [hlog, hulog, he]⟩

/-- A completed run over actions that carry their own operands found a response for each of them. -/
theorem responses_of_run {k : Nat} {s t : State} (hself : ∀ a ∈ s.script, a.selfContained = true)
    (h : Sys2Proof.core.run k s = .next t) : ∀ a ∈ s.script.take k, a.response.isSome = true := by
  induction k generalizing s with
  | zero => simp
  | succ k ih =>
    obtain ⟨u, hu, hrun⟩ := run_succ_cases h
    cases hs : s.script with
    | nil => simp
    | cons a rest =>
      rw [hs, List.forall_mem_cons] at hself
      obtain ⟨ha, hrest⟩ := hself
      have hresp := response_isSome_of_perform ha ((step_of_cons hs).symm.trans hu)
      obtain ⟨e, he⟩ := Option.isSome_iff_exists.mp hresp
      obtain ⟨u', hu', rfl, -⟩ := step_of_response hs he
      obtain rfl : u = u' := Host.Outcome.next.inj (hu.symm.trans hu')
      rw [List.take_succ_cons, List.forall_mem_cons]
      exact ⟨hresp, ih hrest hrun⟩

/-! ### The consistency of the log (R10, R33) -/

/-- The wrapper's answer to a request that selects an operation is one the rules give. -/
theorem consistent_wrapper_of_ok {w : ReqWord} {i : Instr} (h : decode w = .ok i) :
    (Exchange.wrapper w (responseWord (unitOutput i))).Consistent :=
  rspLevel_of_ok h

/-- Whatever an action records is a response the rules give; it records at most one. -/
theorem perform_log {a : Action} {s t : State} (h : perform a s = .next t) :
    t.log = s.log ∨ ∃ e, e.Consistent ∧ t.log = s.log ++ [e] := by
  rcases perform_cases h with ⟨w, i, -, hi, rfl⟩ | ⟨w, -, rfl⟩ | ⟨i, -, hi, rfl⟩ | ⟨i, -, rfl⟩ | ⟨d, -, rfl⟩ | ⟨o, -, rfl⟩ |
    ⟨q, -, rfl⟩
  · exact .inr ⟨_, consistent_wrapper_of_ok hi, rfl⟩
  · exact .inl rfl
  · exact .inr ⟨_, consistent_wrapper_of_ok hi, rfl⟩
  · exact .inr ⟨.unit i (unitOutput i), rfl, rfl⟩
  · exact .inl rfl
  · exact .inr ⟨.unit (portOperation s.inputs o) (portLevel s.inputs o), rfl, rfl⟩
  · exact .inr ⟨.sequence q (runSeq q), rfl, rfl⟩

/-- So it is with a step. -/
theorem step_log {s t : State} (h : step s = .next t) :
    t.log = s.log ∨ ∃ e, e.Consistent ∧ t.log = s.log ++ [e] := by
  cases hs : s.script with
  | nil =>
    obtain rfl : s = t := Host.Outcome.next.inj ((step_of_nil hs).symm.trans h)
    exact .inl rfl
  | cons a rest => exact perform_log (s := s.setScript rest) ((step_of_cons hs).symm.trans h)

end Sys2Proof.Machine

section

open Sys2Proof Sys2Proof.Machine

/-- Settles O48: a step adds to the log at most one exchange, and that is one the rules give (`step_log`). -/
theorem consistentLogIsKept : Obligations.ConsistentLogIsKept := by
  intro s t hs h
  rcases step_log h with hlog | ⟨e, he, hlog⟩
  · intro x hx
    exact hs x (hlog ▸ hx)
  · intro x hx
    rw [hlog, List.mem_append, List.mem_singleton] at hx
    rcases hx with hx | rfl
    · exact hs x hx
    · exact he

/-- Settles O51: both steps record the unit's result for the operand, and a port's level is that function of the
operation it performs. -/
theorem sameOperandSameResult : Obligations.SameOperandSameResult := by
  intro s t w w' i l m hs ht hw hw'
  refine ⟨_, _, unitOutput i, (step_of_cons hs).trans (perform_request_of_ok hw _),
    (step_of_cons ht).trans (perform_request_of_ok hw' _), rfl, rfl, ?_⟩
  rintro u o rfl
  rfl

/-- Settles O54: what a run over such a script receives is a function of the script alone (`run_of_responses`). -/
theorem historyCannotBeObserved : Obligations.HistoryCannotBeObserved := by
  intro s t s' k hscript hself hrun
  have hresp := responses_of_run hself hrun
  obtain ⟨s'', hs, -, hslog⟩ := run_of_responses k s hresp
  obtain ⟨t', ht, -, htlog⟩ := run_of_responses k t (hscript ▸ hresp)
  obtain rfl : s' = s'' := Host.Outcome.next.inj (hrun.symm.trans hs)
  exact ⟨t', _, ht, hslog, hscript ▸ htlog⟩

end

namespace Sys2Proof.Machine

/-! ### Driving one input port (R22) -/

/-- The output ports an input port feeds (R22). -/
def Drive.feeds : Drive → List OutPort
  | .encValue _ => [.encWord]
  | .parWord _ => [.decValue, .hasError]
  | .nibble _ => [.cw]
  | .decCw _ => [.nibble]
  | .synCw _ => [.synClass]
  | .encByte _ => [.encPair]
  | .decPair _ => [.decByte, .decClass]
  | .bcdValue _ => [.bcdWord]
  | .bcdWord _ => [.bcdValue]

/-- A port that the driven one does not feed keeps its operation and operand. -/
theorem portOperation_drive_of_not_mem_feeds {d : Drive} {o : OutPort} (u : UnitInputs) (h : o ∉ d.feeds) :
    portOperation (u.drive d) o = portOperation u o := by
  revert h
  cases d <;> cases o <;> simp [Drive.feeds, portOperation]

/-- So it keeps its level. -/
theorem portLevel_drive_of_not_mem_feeds {d : Drive} {o : OutPort} (u : UnitInputs) (h : o ∉ d.feeds) :
    portLevel (u.drive d) o = portLevel u o :=
  congrArg unitOutput (portOperation_drive_of_not_mem_feeds u h)

/-! ### One action of the host at a time (R33) -/

/-- No action touches what the host does after it, and one that drives no unit leaves the units' input ports as they
were. -/
theorem perform_frame {a : Action} {s t : State} (h : perform a s = .next t) :
    t.script = s.script ∧ (a.drivesUnit = false → t.inputs = s.inputs) := by
  rcases perform_cases h with ⟨w, i, -, -, rfl⟩ | ⟨w, -, rfl⟩ | ⟨i, -, -, rfl⟩ | ⟨i, rfl, rfl⟩ | ⟨d, rfl, rfl⟩ |
    ⟨o, -, rfl⟩ | ⟨q, -, rfl⟩
  · exact ⟨rfl, fun _ => rfl⟩
  · exact ⟨rfl, fun _ => rfl⟩
  · exact ⟨rfl, fun _ => rfl⟩
  · exact ⟨rfl, nofun⟩
  · exact ⟨rfl, nofun⟩
  · exact ⟨rfl, fun _ => rfl⟩
  · exact ⟨rfl, fun _ => rfl⟩

/-- A step on a request that selects an operation runs it, with the word on `req`. -/
theorem step_request_of_ok {s : State} {w : ReqWord} {rest : List Action} {i : Instr}
    (hs : s.script = .request w :: rest) (hw : decode w = .ok i) :
    step s = exec i { s with script := rest, req := w } :=
  (step_of_cons hs).trans (readResponse_of_ok (s := (s.setScript rest).setReq w) hw)

/-- What a placed word selects is what the request it is placed as selects (R66). -/
theorem decode_of_decodeTableWord {nbits w : Nat} {i : Instr} (h : decodeTableWord nbits w = some i) :
    decode (BitVec.ofNat 20 (w % 2 ^ nbits)) = .ok i := by
  simp only [decodeTableWord, decodeNat] at h
  split at h
  · cases hd : decode (BitVec.ofNat 20 (w % 2 ^ nbits)) with
    | ok j => simpa [hd, Except.mapError, Except.toOption] using h
    | error e => simp [hd, Except.mapError, Except.toOption] at h
  · cases h

theorem step_drive (s : State) (d : Drive) (rest : List Action) :
    step { s with script := .drive d :: rest } = .next { s with inputs := s.inputs.drive d, script := rest } :=
  (step_of_cons rfl).trans (perform_drive d _)

theorem step_read (s : State) (o : OutPort) (rest : List Action) :
    step { s with script := .read o :: rest } =
      .next { s with script := rest, log := s.log ++ [.unit (portOperation s.inputs o) (portLevel s.inputs o)] } :=
  (step_of_cons rfl).trans (perform_read o _)

theorem step_driveReq (s : State) (w : ReqWord) (rest : List Action) :
    step { s with script := .driveReq w :: rest } = .next { s with req := w, script := rest } :=
  (step_of_cons rfl).trans (perform_driveReq w _)

theorem step_readRsp_of_ok {s : State} {i : Instr} (h : decode s.req = .ok i) (rest : List Action) :
    step { s with script := .readRsp :: rest } =
      .next { s with script := rest, log := s.log ++ [.wrapper s.req (responseWord (unitOutput i))] } :=
  (step_of_cons rfl).trans (perform_readRsp_of_ok (s := s.setScript rest) h)

/-- Two steps that answer make a run of two. -/
theorem run_two_of_next {s t u : State} (hst : step s = .next t) (htu : step t = .next u) :
    Sys2Proof.core.run 2 s = .next u :=
  (run_succ_of_next hst 1).trans ((run_one t).trans htu)

/-- Driving the input port of an operation and reading its output port records the result (R22, R32). -/
theorem run_drive_read (s : State) (i : Instr) (rest : List Action) :
    Sys2Proof.core.run 2 { s with script := .drive (inputOf i) :: .read (outputOf i) :: rest } =
      .next { s with
        inputs := s.inputs.drive (inputOf i), script := rest, log := s.log ++ [.unit i (unitOutput i)] } := by
  rw [run_two_of_next (step_drive s _ _) (step_read { s with inputs := s.inputs.drive (inputOf i) } _ _),
    portOperation_drive, portLevel_drive]

/-- So does presenting its operand (R33). -/
theorem step_present (s : State) (i : Instr) (rest : List Action) :
    step { s with script := .present i :: rest } =
      .next { s with
        inputs := s.inputs.drive (inputOf i), script := rest, log := s.log ++ [.unit i (unitOutput i)] } := by
  rw [step_of_cons rfl, perform_present, presentOperand_eq]
  rfl

/-- Driving `req` with a request that selects an operation and reading `rsp` records the response (R32, R64). -/
theorem run_driveReq_readRsp_of_ok {w : ReqWord} {i : Instr} (h : decode w = .ok i) (s : State) (rest : List Action) :
    Sys2Proof.core.run 2 { s with script := .driveReq w :: .readRsp :: rest } =
      .next { s with req := w, script := rest, log := s.log ++ [.wrapper w (responseWord (unitOutput i))] } :=
  run_two_of_next (step_driveReq s w _) (step_readRsp_of_ok (s := { s with req := w }) h rest)

end Sys2Proof.Machine

section

open Sys2Proof Sys2Proof.Machine

/-- Settles O9: the driven port's level is the operation's operand (`run_drive_read`). -/
theorem unitReadAfterDriveGivesTheResult : Obligations.UnitReadAfterDriveGivesTheResult :=
  run_drive_read

/-- Settles O52: such an action leaves the input ports, of which every output port is a function. -/
theorem requestsMoveNoUnitPort : Obligations.RequestsMoveNoUnitPort := by
  intro s t a rest hs ha h
  obtain ⟨hscript, hframe⟩ := perform_frame (s := s.setScript rest) ((step_of_cons hs).symm.trans h)
  have hinputs : t.inputs = s.inputs := hframe ha
  exact ⟨hscript, hinputs, fun o => by rw [hinputs]⟩

/-- Settles O1, by `step_request_of_ok`; no operation is ill formed, so that hypothesis is not needed. -/
theorem stepPerformsTheDecodedOperation : Obligations.StepPerformsTheDecodedOperation :=
  fun _ _ _ _ hs hw _ => step_request_of_ok hs hw

/-- Settles O2: the word is the next request, and selects what it was read as (`decode_of_decodeTableWord`). -/
theorem placedWordIsPerformedNext : Obligations.PlacedWordIsPerformedNext :=
  fun _ _ _ _ h => step_request_of_ok rfl (decode_of_decodeTableWord h)

/-- Settles O10: an output port that the driven port does not feed keeps its level
(`portLevel_drive_of_not_mem_feeds`). -/
theorem drivingOnePortMovesOnlyWhatItFeeds : Obligations.DrivingOnePortMovesOnlyWhatItFeeds := by
  intro u o
  have hframe (d : Drive) (h : o ∉ d.feeds) := portLevel_drive_of_not_mem_feeds u h
  exact ⟨fun v h => hframe (.encValue v) (by simp [Drive.feeds, h]),
    fun w h h' => hframe (.parWord w) (by simp [Drive.feeds, h, h']),
    fun n h => hframe (.nibble n) (by simp [Drive.feeds, h]),
    fun w h => hframe (.decCw w) (by simp [Drive.feeds, h]),
    fun w h => hframe (.synCw w) (by simp [Drive.feeds, h]),
    fun b h => hframe (.encByte b) (by simp [Drive.feeds, h]),
    fun p h h' => hframe (.decPair p) (by simp [Drive.feeds, h, h']),
    fun v h => hframe (.bcdValue v) (by simp [Drive.feeds, h]),
    fun w h => hframe (.bcdWord w) (by simp [Drive.feeds, h])⟩

/-- Settles O49: nothing is recorded or asked at power-up, and the op code on `req` is PAR.ENC's. -/
theorem resetStateMeetsTheInvariants : Obligations.ResetStateMeetsTheInvariants := by
  have hscript : State.reset.script = [] := rfl
  have hlog : State.reset.log = [] := rfl
  have hreq : reqWf State.reset.req = true := by decide
  refine ⟨?_, ?_, ⟨hreq, ?_⟩, hscript, hlog⟩
  · simp [State.Consistent, hlog]
  · simp [State.Good, hlog]
  · simp [hscript]

/-- Settles O56: one step of presenting (`step_present`) and the two of driving and reading (`run_drive_read`) come to
one state. -/
theorem presentingAnOperandGivesTheResult : Obligations.PresentingAnOperandGivesTheResult := by
  intro s i rest
  have hstep := step_present s i rest
  exact ⟨hstep, (run_one _).trans (hstep.trans (run_drive_read s i rest).symm)⟩

/-- Settles O57: driving and reading (`run_driveReq_readRsp_of_ok`) come to the state the request's step answers. -/
theorem rspReadAfterDrivingReqGivesTheResult : Obligations.RspReadAfterDrivingReqGivesTheResult := by
  intro s w rest
  refine ⟨step_driveReq s w rest, fun i hi => ⟨?_, run_driveReq_readRsp_of_ok hi s rest, ?_⟩⟩
  · rintro rfl
    exact step_readRsp_of_ok hi rest
  · rw [run_driveReq_readRsp_of_ok hi, step_request_of_ok rfl hi, exec_eq]
    rfl

/-- Settles O58, by the rules for a step that reads and a step that drives (`step_read`, `step_drive`). -/
theorem readingAPortChangesNothing : Obligations.ReadingAPortChangesNothing :=
  fun s rest => ⟨fun o => step_read s o rest, fun d => step_drive s d rest⟩

end

namespace Sys2Proof.Machine

/-! ### Doubling (45_tablegen.md R130, R131) -/

@[simp] theorem length_tm (n : Nat) (p0 : Bool) : (tm n p0).length = 2 ^ n := by
  induction n with
  | zero => rfl
  | succ n ih => simp [tm, ih, Nat.pow_succ, Nat.mul_two]

theorem popcount_ofNat (n i : Nat) : popcount (BitVec.ofNat n i) = (List.range n).countP i.testBit :=
  List.countP_congr fun k hk => by rw [BitVec.getLsbD_ofNat]; simp [List.mem_range.mp hk]

/-- The weight of an index one bit wider: the weight of its low bits, and its top bit. -/
theorem popcount_ofNat_succ (n i : Nat) :
    popcount (BitVec.ofNat (n + 1) i) = popcount (BitVec.ofNat n i) + (i.testBit n).toNat := by
  cases h : i.testBit n <;> simp [popcount_ofNat, List.range_succ, h]

/-- In the first half of a doubled sequence the indices have the weight they had. -/
theorem odd_ofNat_succ_of_lt {n i : Nat} (h : i < 2 ^ n) :
    odd (BitVec.ofNat (n + 1) i) = odd (BitVec.ofNat n i) := by
  simp [odd, popcount_ofNat_succ, Nat.testBit_lt_two_pow h]

/-- In the second half they have one bit more. -/
theorem odd_ofNat_succ_of_le {n i : Nat} (hle : 2 ^ n ≤ i) (hlt : i < 2 ^ (n + 1)) :
    odd (BitVec.ofNat (n + 1) i) = !odd (BitVec.ofNat n (i - 2 ^ n)) := by
  obtain ⟨j, rfl⟩ := Nat.exists_eq_add_of_le hle
  have hj : j < 2 ^ n := by omega
  have hlow : BitVec.ofNat n (2 ^ n + j) = BitVec.ofNat n j := BitVec.eq_of_toNat_eq (by simp)
  have htop : (2 ^ n + j).testBit n = true := by simp [Nat.testBit_two_pow_add_eq, Nat.testBit_lt_two_pow hj]
  rw [Nat.add_sub_cancel_left, odd, odd, popcount_ofNat_succ, hlow, htop]
  rcases Nat.mod_two_eq_zero_or_one (popcount (BitVec.ofNat n j)) with h | h <;> simp [Nat.add_mod, h]

/-- R131: each entry is the first one exclusive-or the parity of the weight of its index. -/
theorem getElem?_tm {n i : Nat} (p0 : Bool) (h : i < 2 ^ n) :
    (tm n p0)[i]? = some (p0 ^^ odd (BitVec.ofNat n i)) := by
  induction n generalizing i with
  | zero =>
    obtain rfl : i = 0 := by omega
    simp [tm, odd, popcount]
  | succ n ih =>
    rw [tm]
    rcases Nat.lt_or_ge i (2 ^ n) with hi | hi
    · rw [List.getElem?_append_left (by simpa using hi), ih hi, odd_ofNat_succ_of_lt hi]
    · have hi' : i - 2 ^ n < 2 ^ n := by omega
      rw [List.getElem?_append_right (by simpa using hi), length_tm, List.getElem?_map, ih hi',
        odd_ofNat_succ_of_le hi h, Option.map_some, Bool.xor_not]

/-- A doubled sequence starting from 0 reads the parity of a word at the word. -/
theorem getElem?_tm_toNat {n : Nat} (w : BitVec n) : (tm n false)[w.toNat]? = some (odd w) := by
  simp [getElem?_tm false w.isLt]

/-- Half of a doubled sequence's entries are 1. -/
theorem count_true_tm_succ (n : Nat) (p0 : Bool) : (tm (n + 1) p0).count true = 2 ^ n := by
  have hneg (l : List Bool) : (l.map (!·)).count true = l.count false := by
    simpa using List.count_map_of_injective l (!·) Bool.not_injective false
  rw [tm, List.count_append, hneg, List.count_true_add_count_false, length_tm]

/-! ### Clearing entries of a mask (45_tablegen.md R134) -/

section Clear

variable {α : Type} (f : α → Nat)

/-- The entries at the positions `f n` cleared, for the `n` of a list in turn. -/
def clearAt (l : List α) (u : List Bool) : List Bool := l.foldl (fun u n => u.set (f n) false) u

@[simp] theorem clearAt_nil (u : List Bool) : clearAt f [] u = u := rfl

@[simp] theorem clearAt_cons (n : α) (l : List α) (u : List Bool) :
    clearAt f (n :: l) u = clearAt f l (u.set (f n) false) := rfl

@[simp] theorem length_clearAt (l : List α) (u : List Bool) : (clearAt f l u).length = u.length := by
  induction l generalizing u with
  | nil => rfl
  | cons n l ih => simp [ih]

/-- An entry is 1 afterwards when it was and none of the positions is its own. -/
theorem getElem?_clearAt (l : List α) (u : List Bool) (k : Nat) :
    (clearAt f l u)[k]? = u[k]?.map (· && !l.any fun n => f n == k) := by
  induction l generalizing u with
  | nil => simp
  | cons n l ih =>
    rw [clearAt_cons, ih, List.getElem?_set]
    by_cases h : f n = k
    · subst h
      by_cases hk : f n < u.length <;> simp [hk]
    · simp [h, beq_false_of_ne h]

/-- Clearing distinct entries that are all 1 takes one 1 away for each. -/
theorem count_true_clearAt {l : List α} {u : List Bool} (hf : l.Pairwise fun m n => f m ≠ f n)
    (hu : ∀ n ∈ l, u[f n]? = some true) : (clearAt f l u).count true + l.length = u.count true := by
  induction l generalizing u with
  | nil => rfl
  | cons n l ih =>
    rw [List.pairwise_cons] at hf
    rw [List.forall_mem_cons] at hu
    obtain ⟨hn, hl⟩ := hf
    obtain ⟨hun, hul⟩ := hu
    have hul' : ∀ m ∈ l, (u.set (f n) false)[f m]? = some true := fun m hm => by
      rw [List.getElem?_set_ne (hn m hm), hul m hm]
    obtain ⟨hlt, htrue⟩ := List.getElem?_eq_some_iff.mp hun
    have hpos : 0 < u.count true := List.count_pos_iff.mpr (htrue ▸ List.getElem_mem hlt)
    have hset : (u.set (f n) false).count true = u.count true - 1 := by simp [List.count_set hlt, htrue]
    rw [clearAt_cons, List.length_cons, ← Nat.add_assoc, ih hl hul', hset]
    omega

end Clear

/-- Entries of a SECDED table at distinct nibbles are distinct. -/
theorem entry_injective_of_secded {T : H84Table} (h : T.Secded) : Function.Injective T.entry := by
  intro m n hmn
  by_contra hne
  have hd4 := h.2 m n hne
  rw [hmn, hd_self] at hd4
  omega

theorem h84UncBuilt_eq_clearAt (T : H84Table) :
    h84UncBuilt T = clearAt (fun n => (T.entry n).toNat) nibbles (tm 8 false) := rfl

/-- R134: what the construction holds at a word. -/
theorem getElem?_h84UncBuilt (T : H84Table) (w : Byte) :
    (h84UncBuilt T)[w.toNat]? = some (odd w && !isCodeword T w) := by
  have hany : (nibbles.any fun n => (T.entry n).toNat == w.toNat) = isCodeword T w := by
    refine congrArg nibbles.any (funext fun n => ?_)
    rw [Bool.eq_iff_iff]
    simp [BitVec.toNat_inj]
  rw [h84UncBuilt_eq_clearAt, getElem?_clearAt, getElem?_tm_toNat, hany, Option.map_some]

/-- R134: before the clearing, the entry at a code-word of a SECDED table is 1. -/
theorem getElem?_tm_entry {T : H84Table} (h : T.Secded) (n : Nibble) :
    (tm 8 false)[(T.entry n).toNat]? = some true := by
  rw [getElem?_tm_toNat, h.1 n]

/-- R134: 128 ones less the sixteen cleared. -/
theorem count_true_h84UncBuilt {T : H84Table} (h : T.Secded) : (h84UncBuilt T).count true = 112 := by
  have hdistinct : nibbles.Pairwise fun m n => (T.entry m).toNat ≠ (T.entry n).toNat :=
    nibbles_nodup.imp fun hne heq => hne (entry_injective_of_secded h (BitVec.eq_of_toNat_eq heq))
  have hcount := count_true_clearAt (fun n => (T.entry n).toNat) hdistinct fun n _ => getElem?_tm_entry h n
  have hlen : nibbles.length = 16 := rfl
  rw [← h84UncBuilt_eq_clearAt, count_true_tm_succ, hlen] at hcount
  omega

end Sys2Proof.Machine

section

open Sys2Proof Sys2Proof.Machine

/-- Settles O38: an entry is 1 when its index has odd weight and is no code-word (`getElem?_h84UncBuilt`); for a SECDED
table the sixteen clearings hit distinct ones. -/
theorem uncorrectableMaskIsTheClearedSequence : Obligations.UncorrectableMaskIsTheClearedSequence := by
  intro T
  refine ⟨by simp [h84UncBuilt_eq_clearAt], fun w => ?_, fun h => ⟨getElem?_tm_entry h, count_true_h84UncBuilt h⟩⟩
  rw [getElem?_h84UncBuilt]
  rfl

end

namespace Sys2Proof.Machine

/-! ### The pairs of an interleaved sequence (20_memory.md R46) -/

@[simp] theorem length_pairsOf (ws : List Byte) : (pairsOf ws).length = ws.length / 2 := by
  fun_induction pairsOf ws with
  | case1 lo hi rest ih =>
    simp only [List.length_cons, ih]
    omega
  | case2 w => simp
  | case3 => rfl

/-- Elements `2i` and `2i + 1` form pair `i`, the first of them its low half. -/
theorem getElem?_pairsOf {ws : List Byte} {i : Nat} {lo hi : Byte} (hlo : ws[2 * i]? = some lo)
    (hhi : ws[2 * i + 1]? = some hi) : (pairsOf ws)[i]? = some (mkPair lo hi) := by
  fun_induction pairsOf ws generalizing i with
  | case1 a b rest ih =>
    cases i with
    | zero =>
      obtain rfl : a = lo := Option.some.inj hlo
      obtain rfl : b = hi := Option.some.inj hhi
      rfl
    | succ i => exact ih (i := i) hlo hhi
  | case2 w => simp at hhi
  | case3 => simp at hhi

/-- H168.DEC.SEQ is H168.DEC of each pair, past the length check (R143). -/
theorem runSeq_h168Dec (ws : List Byte) :
    runSeq (.h168Dec ws) = checkedPairs ws fun ps => .words (ps.map (h168Dec Config.hw)) := rfl

/-- H168.SYN.SEQ is H168.SYN of each pair, past the length check (R144). -/
theorem runSeq_h168Syn (ws : List Byte) :
    runSeq (.h168Syn ws) = checkedPairs ws fun ps => .classes (ps.map (h168Syn Config.hw)) := rfl

/-! ### Actions that keep the host's contract (60_exceptions.md R160) -/

/-- An action that carries its own operand and keeps the contract has a response of its own. -/
theorem response_isSome_of_keepsContract {a : Action} (hself : a.selfContained = true)
    (hkeeps : a.keepsContract = true) : a.response.isSome = true := by
  cases a with
  | request w =>
    obtain ⟨i, hi⟩ := decode_of_reqWf hkeeps
    rw [response_request_of_ok hi]
    rfl
  | present i => rfl
  | sequence q => rfl
  | driveReq w => cases hself
  | readRsp => cases hself
  | drive d => cases hself
  | read o => cases hself

/-- A whole script of actions with responses of their own runs to its end and receives exactly those, in order. -/
theorem run_script_of_responses (s : State) {p : List Action} (h : ∀ a ∈ p, a.response.isSome = true) :
    ∃ t, Sys2Proof.core.run p.length { s with script := p } = .next t ∧
      t.log = s.log ++ p.filterMap Action.response := by
  obtain ⟨t, hrun, -, hlog⟩ := run_of_responses p.length { s with script := p } (by simpa using h)
  exact ⟨t, hrun, by simpa using hlog⟩

end Sys2Proof.Machine

section

open Sys2Proof Sys2Proof.Machine

/-- Settles O42: past the length check both forms map their operation over the pairs, and pair `i` is made of elements
`2i` and `2i + 1` (`getElem?_pairsOf`). -/
theorem sequenceDecodingPairsTheNeighbours : Obligations.SequenceDecodingPairsTheNeighbours := by
  intro ws
  constructor
  · intro heven
    refine ⟨(pairsOf ws).map (h168Dec Config.hw), (pairsOf ws).map (h168Syn Config.hw),
      (runSeq_h168Dec ws).trans (checkedPairs_of_even heven _),
      (runSeq_h168Syn ws).trans (checkedPairs_of_even heven _), by simp, by simp, fun i lo hi hlo hhi => ?_⟩
    have hpair : (pairsOf ws)[i]? = some (hi ++ lo) := getElem?_pairsOf hlo hhi
    constructor
    · rw [List.getElem?_map, hpair, Option.map_some]
    · rw [List.getElem?_map, hpair, Option.map_some]
  · intro hodd
    have hodd' : ws.length % 2 = 1 := Nat.mod_two_ne_zero.mp hodd
    exact ⟨(runSeq_h168Dec ws).trans (checkedPairs_of_odd hodd' _),
      (runSeq_h168Syn ws).trans (checkedPairs_of_odd hodd' _)⟩

/-- Settles O53: each run receives the responses of its own script (`run_script_of_responses`), and mapping permuted
scripts to their responses gives permuted responses. -/
theorem orderOfRequestsDoesNotMatter : Obligations.OrderOfRequestsDoesNotMatter := by
  intro s p q hpq h
  have hp : ∀ a ∈ p, a.response.isSome = true := fun a ha =>
    response_isSome_of_keepsContract (h a ha).1 (h a ha).2
  have hq : ∀ a ∈ q, a.response.isSome = true := fun a ha => hp a (hpq.mem_iff.mpr ha)
  obtain ⟨t, ht, htlog⟩ := run_script_of_responses s hp
  obtain ⟨u, hu, hulog⟩ := run_script_of_responses s hq
  exact ⟨t, u, ht, hu, _, _, htlog, hulog, hpq.filterMap Action.response⟩

end

namespace Sys2Proof

/-! ### The fields of a request word and the bits an operation reads (30_encoding.md R60, R62, R63) -/

/-- A conjunction of request words is taken field by field. -/
theorem mkReq_and (op op' : BitVec 4) (a a' : BitVec 16) : mkReq op a &&& mkReq op' a' = mkReq (op &&& op') (a &&& a') :=
  BitVec.and_append

theorem mkReq_inj {op op' : BitVec 4} {a a' : BitVec 16} : mkReq op a = mkReq op' a' ↔ op = op' ∧ a = a' := by
  constructor
  · intro h
    exact ⟨by simpa using congrArg reqOp h, by simpa using congrArg reqArg h⟩
  · rintro ⟨rfl, rfl⟩
    rfl

/-- A request word under a mask that keeps the whole of `op`. -/
theorem and_mkReq_op (w : ReqWord) (m : BitVec 16) : w &&& mkReq 0xF m = mkReq (reqOp w) (reqArg w &&& m) := by
  have hop : reqOp w &&& 0xF = reqOp w := BitVec.and_allOnes
  conv_lhs => rw [← mkReq_reqOp_reqArg w, mkReq_and, hop]

/-- The width of the operand under an op code: how many bits its row marks `a` (R62). -/
def operandWidth (op : BitVec 4) : Nat :=
  match op.toNat with
  | 0x0 => 7
  | 0x3 => 4
  | 0x7 => 16
  | 0x8 => 16
  | 0x9 => 7
  | _ => 8

/-- The low `k` bits of the field `a`. -/
def lowMask (k : Nat) : BitVec 16 := (BitVec.allOnes k).setWidth 16

/-- An operand slice, zero-extended, is `a` with the bits above the slice cleared. -/
theorem setWidth_operandSlice (k : Nat) (a : BitVec 16) : (operandSlice k a).setWidth 16 = a &&& lowMask k :=
  BitVec.eq_of_getLsbD_eq fun i hi => by simp [operandSlice, lowMask, hi, Bool.and_comm]

/-- The bits an operation reads are a function of its op code alone. -/
theorem usedMask_eq (i : Instr) : i.usedMask = mkReq 0xF (lowMask (operandWidth i.opcode)) := by
  cases i <;> simp only [Instr.usedMask, Instr.opcode] <;> decide

/-- The operand of what a request word selects: its field `a` without the ignored bits. -/
theorem operand_of_decode {w : ReqWord} {i : Instr} (h : decode w = .ok i) :
    i.operand = reqArg w &&& lowMask (operandWidth i.opcode) := by
  rw [← setWidth_operandSlice]
  simp only [decode] at h
  split at h <;> cases h <;> rfl

/-- Decoding undoes encoding. -/
theorem decode_encode (i : Instr) : decode (encode i) = .ok i := by
  have hpair (p : PairWord) : operandSlice 16 p = p := BitVec.extractLsb'_eq_self
  cases i <;> simp [decode, encode, Instr.opcode, Instr.operand, operandSlice_setWidth, hpair]

/-- Encoding undoes decoding, up to the ignored bits. -/
theorem encode_of_decode {w : ReqWord} {i : Instr} (h : decode w = .ok i) : encode i = w &&& i.usedMask := by
  rw [encode, usedMask_eq, and_mkReq_op, reqOp_of_decode h, operand_of_decode h]

/-- A request word with the op code of an operation selects one with that op code. -/
theorem decode_of_reqOp_eq_opcode {w : ReqWord} {i : Instr} (h : reqOp w = i.opcode) :
    ∃ j, decode w = .ok j ∧ j.opcode = i.opcode := by
  have hwf : reqWf w = true := by
    rw [reqWf, h]
    cases i <;> rfl
  obtain ⟨j, hj⟩ := decode_of_reqWf hwf
  exact ⟨j, hj, (reqOp_of_decode hj).symm.trans h⟩

/-- A word that agrees with an operation's encoding on the bits the operation reads selects that operation. -/
theorem decode_of_and_usedMask_eq_encode {w : ReqWord} {i : Instr} (h : w &&& i.usedMask = encode i) :
    decode w = .ok i := by
  have hop : reqOp w = i.opcode := by
    rw [usedMask_eq, and_mkReq_op, encode, mkReq_inj] at h
    exact h.1
  obtain ⟨j, hj, hji⟩ := decode_of_reqOp_eq_opcode hop
  have henc : encode j = encode i := by
    rw [encode_of_decode hj, usedMask_eq, hji, ← usedMask_eq, h]
  rw [hj, ← decode_encode j, henc, decode_encode]

/-! ### The rows of the operation map (R62) -/

/-- Every row is matched on the whole of `op` and on nothing else, and its op code is a defined one. -/
theorem opcodeRows_fields : ∀ r ∈ opcodeRows,
    r.mask = mkReq 0xF 0 ∧ r.pattern = mkReq (reqOp r.pattern) 0 ∧ (reqOp r.pattern).toNat < 0xB := by
  decide

/-- A row covers the words with its op code. -/
theorem covers_iff {r : OpcodeRow} (hr : r ∈ opcodeRows) (w : ReqWord) :
    r.covers w = true ↔ reqOp w = reqOp r.pattern := by
  obtain ⟨hmask, hpattern, -⟩ := opcodeRows_fields r hr
  rw [OpcodeRow.covers, beq_iff_eq, hmask, hpattern, and_mkReq_op, mkReq_inj]
  simp

/-- Of the rows, an operation's mnemonic stands in the one with its op code. -/
theorem mnemonic_eq_iff (i : Instr) :
    ∀ r ∈ opcodeRows, r.mnemonic = i.mnemonic ↔ i.opcode = reqOp r.pattern := by
  cases i <;> simp only [Instr.mnemonic, Instr.opcode] <;> decide

end Sys2Proof

section

open Sys2Proof Sys2Proof.Machine

/-- Settles O4, by `decode_encode` and `encode_of_decode`. -/
theorem decodeInvertsEncode : Obligations.DecodeInvertsEncode :=
  ⟨decode_encode, fun _ _ => encode_of_decode⟩

/-- Settles O5: the first word is the operation's encoding on the bits it reads (`encode_of_decode`), so the second is
too. -/
theorem ignoredOperandBitsDoNotMatter : Obligations.IgnoredOperandBitsDoNotMatter := by
  intro w w' i hw hagree
  exact decode_of_and_usedMask_eq_encode (hagree.symm.trans (encode_of_decode hw).symm)

/-- Settles O6: a row covers exactly the words with its op code (`covers_iff`); a decoding word has the op code of its
operation, and a rejected one a reserved op code, which no row has. -/
theorem eachRequestFallsUnderItsOwnRowOnly : Obligations.EachRequestFallsUnderItsOwnRowOnly := by
  constructor
  · intro w i hw r hr
    rw [covers_iff hr, mnemonic_eq_iff i r hr, reqOp_of_decode hw]
  · intro w e hw r hr
    obtain ⟨-, -, hdefined⟩ := opcodeRows_fields r hr
    obtain ⟨hreserved, -⟩ := (decode_eq_error_iff w e).mp hw
    rw [Bool.eq_false_iff, ne_eq, covers_iff hr]
    intro hop
    rw [hop] at hreserved
    omega

/-- Settles O3: thirteen words, evaluated. -/
theorem writtenOutWordsDecode : Obligations.WrittenOutWordsDecode := by
  unfold Obligations.WrittenOutWordsDecode
  decide

end

namespace Sys2Proof.Machine

/-! ### Where a step is refused (30_encoding.md R65) -/

/-- The script's next action takes the response of `w`: a request with `w`, or a read of `rsp` with `w` on `req`. -/
def State.AsksNext (s : State) (w : ReqWord) (rest : List Action) : Prop :=
  s.script = .request w :: rest ∨ s.script = .readRsp :: rest ∧ s.req = w

/-- Such a step is a read of `rsp` with that word on `req`. -/
theorem step_of_asksNext {s : State} {w : ReqWord} {rest : List Action} (h : s.AsksNext w rest) :
    ∃ u : State, u.req = w ∧ step s = readResponse u := by
  rcases h with hs | ⟨hs, hw⟩
  · exact ⟨(s.setScript rest).setReq w, rfl, step_of_cons hs⟩
  · exact ⟨s.setScript rest, hw, step_of_cons hs⟩

/-- It is refused under a reserved op code. -/
theorem step_of_asksNext_of_reserved {s : State} {w : ReqWord} {rest : List Action} (h : s.AsksNext w rest)
    (hw : 0xB ≤ (reqOp w).toNat) : step s = .refused (.reservedOp (reqOp w)) := by
  obtain ⟨u, rfl, hstep⟩ := step_of_asksNext h
  exact hstep.trans (readResponse_of_error ((decode_eq_error_iff _ _).mpr ⟨hw, rfl⟩))

/-- It is answered under a defined one. -/
theorem step_of_asksNext_of_defined {s : State} {w : ReqWord} {rest : List Action} (h : s.AsksNext w rest)
    (hw : (reqOp w).toNat < 0xB) : ∃ t, step s = .next t := by
  obtain ⟨u, rfl, hstep⟩ := step_of_asksNext h
  have hwf : reqWf u.req = true := decide_eq_true (Nat.le_of_lt_succ hw)
  obtain ⟨i, hi⟩ := decode_of_reqWf hwf
  exact ⟨_, hstep.trans ((readResponse_of_ok hi).trans (exec_eq i u))⟩

/-- And no other step is refused. -/
theorem step_refused {s : State} {r : Refusal} (h : step s = .refused r) :
    ∃ w rest, s.AsksNext w rest ∧ 0xB ≤ (reqOp w).toNat ∧ r = .reservedOp (reqOp w) := by
  cases hs : s.script with
  | nil => cases (step_of_nil hs).symm.trans h
  | cons a rest =>
    obtain ⟨w, e, hasks, he, rfl⟩ := perform_refused ((step_of_cons hs).symm.trans h)
    obtain ⟨hop, rfl⟩ := (decode_eq_error_iff w e).mp he
    refine ⟨w, rest, ?_, hop, rfl⟩
    rcases hasks with rfl | ⟨rfl, hreq⟩
    · exact .inl hs
    · exact .inr ⟨hs, hreq⟩

theorem step_ne_fault (s : State) (f : Fault) : step s ≠ .fault f := by
  cases hs : s.script with
  | nil => simp [step_of_nil hs]
  | cons a rest =>
    rw [step_of_cons hs]
    exact perform_ne_fault a _ f

/-! ### The extension of results (R64) -/

theorem toNat_zext16 {n : Nat} (v : BitVec n) (h : n ≤ 16) : (zext16 v).toNat = v.toNat :=
  BitVec.toNat_setWidth_of_le h

theorem toInt_sext16 {n : Nat} (v : BitVec n) (h : n ≤ 16) : (sext16 v).toInt = v.toInt :=
  BitVec.toInt_signExtend_of_le h

/-- A zero-extended result is got back by cutting to its width. -/
@[simp] theorem setWidth_zext16 {n : Nat} (v : BitVec n) (h : n ≤ 16) : (zext16 v).setWidth n = v := by
  rw [zext16, BitVec.setWidth_setWidth_of_le v h, BitVec.setWidth_eq]

/-- So is a sign-extended one. -/
@[simp] theorem setWidth_sext16 {n : Nat} (v : BitVec n) (h : n ≤ 16) : (sext16 v).setWidth n = v :=
  BitVec.eq_of_getLsbD_eq fun i hi => by
    simp [sext16, BitVec.getLsbD_signExtend, hi]
    omega

/-- H168.ENC's result is as wide as the response. -/
@[simp] theorem zext16_pair (p : PairWord) : zext16 p = p := BitVec.setWidth_eq p

/-- R123: the digits are at most fifteen each. -/
theorem bcdDecInt_bounds (w : Byte) : -11 ≤ bcdDecInt Config.hw w ∧ bcdDecInt Config.hw w ≤ 154 := by
  have hhigh := (highNibble w).isLt
  have hlow := (lowNibble w).isLt
  have hbias : Config.hw.bcdDecBias = 11 := rfl
  rw [bcdDecInt, hbias]
  omega

/-- Nine bits hold the integer of BCD.DEC. -/
theorem toInt_bcdDec (w : Byte) : (bcdDec Config.hw w).toInt = bcdDecInt Config.hw w := by
  obtain ⟨hlow, hhigh⟩ := bcdDecInt_bounds w
  exact BitVec.toInt_ofInt_eq_self (by decide) (by omega) (by omega)

/-! ### A sequence form and the requests it expands into (R68) -/

/-- The step of a request for an operation moves the script on and records its response, with no unit port moved. -/
theorem step_request_encode (s : State) (i : Instr) (rest : List Action) :
    ∃ u, step { s with script := .request (encode i) :: rest } = .next u ∧ u.script = rest ∧ u.inputs = s.inputs ∧
      u.log = s.log ++ [.wrapper (encode i) (responseWord (unitOutput i))] :=
  ⟨_, (step_request_of_ok rfl (decode_encode i)).trans (exec_eq i _), rfl, rfl, rfl⟩

/-- So do the steps of requests for operations issued one after another. -/
theorem run_requests (s : State) (ops : List Instr) (rest : List Action) :
    ∃ t, Sys2Proof.core.run ops.length { s with script := ops.map (fun i => .request (encode i)) ++ rest } = .next t ∧
      t.script = rest ∧ t.inputs = s.inputs ∧
      t.log = s.log ++ ops.map fun i => .wrapper (encode i) (responseWord (unitOutput i)) := by
  induction ops generalizing s with
  | nil => exact ⟨_, run_zero _, rfl, rfl, by simp⟩
  | cons i ops ih =>
    obtain ⟨u, hstep, hscript, hinputs, hlog⟩ :=
      step_request_encode s i (ops.map (fun i => .request (encode i)) ++ rest)
    have hu : { u with script := ops.map (fun i => .request (encode i)) ++ rest } = u := by rw [← hscript]
    obtain ⟨t, hrun, htscript, htinputs, htlog⟩ := ih u
    rw [hu] at hrun
    exact ⟨t, (run_succ_of_next hstep ops.length).trans hrun, htscript, htinputs.trans hinputs, by simp [htlog, hlog]⟩

/-- A sequence form that does not fail returns what the host assembles from the responses to its expansion (R68, R141
to R144): past the length check of the two decoding forms, each response cut back to the result's width is the result. -/
theorem runSeq_eq_assemble {q : SeqOp} {ops : List Instr} (h : expand q = some ops) :
    runSeq q = .done (assemble q (ops.map fun i => responseWord (unitOutput i))) := by
  cases q with
  | h168Dec ws =>
    obtain ⟨heven, rfl⟩ : ws.length % 2 = 0 ∧ (pairsOf ws).map .h168Dec = ops := by simpa [expand] using h
    rw [runSeq_h168Dec, checkedPairs_of_even heven]
    simp [assemble, unitOutput, responseWord, Function.comp_def]
  | h168Syn ws =>
    obtain ⟨heven, rfl⟩ : ws.length % 2 = 0 ∧ (pairsOf ws).map .h168Syn = ops := by simpa [expand] using h
    rw [runSeq_h168Syn, checkedPairs_of_even heven]
    simp [assemble, unitOutput, responseWord, Function.comp_def]
  | _ =>
    cases h
    simp [runSeq, assemble, unitOutput, responseWord, Function.comp_def]

end Sys2Proof.Machine

section

open Sys2Proof Sys2Proof.Machine

/-- Settles O7: a step that takes a response is refused or answered by the op code of the word it is the response of
(`step_of_asksNext_of_reserved`, `step_of_asksNext_of_defined`); driving `req` takes none. -/
theorem reservedRequestsAndOnlyThoseAreRefused : Obligations.ReservedRequestsAndOnlyThoseAreRefused :=
  fun _ _ _ => ⟨fun hasks => ⟨step_of_asksNext_of_reserved hasks, step_of_asksNext_of_defined hasks⟩,
    fun hs => step_of_cons hs⟩

/-- Settles O8: the step runs the operation (`step_request_of_ok`), whose response is the extension of its unit's result,
and that is the level on the driven unit's port (`portLevel_drive`). -/
theorem wrapperAgreesWithTheUnits : Obligations.WrapperAgreesWithTheUnits := by
  intro s w rest i hw
  rw [step_request_of_ok rfl hw, exec_eq, portLevel_drive]
  rfl

/-- Settles O47, by `exec_eq`, `step_ne_fault` and `step_refused`. -/
theorem nothingFaults : Obligations.NothingFaults :=
  ⟨fun i s => ⟨_, exec_eq i s⟩, step_ne_fault, fun _ _ => step_refused⟩

/-- Settles O11: `zext16` keeps the unsigned value of a result of at most 16 bits, `sext16` the signed one
(`toNat_zext16`, `toInt_sext16`), and BCD.DEC's nine bits hold its integer (`toInt_bcdDec`). -/
theorem resultsAreExtendedToTheResponse : Obligations.ResultsAreExtendedToTheResponse := by
  have hzext {n : Nat} (h : n ≤ 16) (v : BitVec n) : (zext16 v).toNat = v.toNat := toNat_zext16 v h
  have hbcd (w : Byte) : (sext16 (bcdDec Config.hw w)).toInt = bcdDecInt Config.hw w :=
    (toInt_sext16 _ (by decide)).trans (toInt_bcdDec w)
  exact ⟨hzext (by decide), hzext (by decide), hzext (by decide), hzext (by decide), hzext (by decide),
    fun c => hzext (by decide) (classBits c), zext16_pair, hzext (by decide),
    fun c => hzext (by decide) (classBits c), hzext (by decide), fun w => ⟨hbcd w, bcdDecInt_bounds w⟩⟩

/-- Settles O46: the requests are answered with their operations' responses (`run_requests`), and of those the host
assembles what the form returns (`runSeq_eq_assemble`). -/
theorem sequenceFormEqualsItsExpansion : Obligations.SequenceFormEqualsItsExpansion := by
  intro q ops s rest hq
  obtain ⟨t, hrun, hscript, hinputs, hlog⟩ := run_requests s ops rest
  refine ⟨t, ops.map fun i => responseWord (unitOutput i), hrun, hscript, hinputs, by simp, ?_, runSeq_eq_assemble hq⟩
  rw [hlog, List.zipWith_map_right, List.zipWith_self]

end

namespace Sys2Proof

/-! ### Weight and parity over a concatenation (00_scope.md R7, R9) -/

theorem popcount_append {m n : Nat} (x : BitVec m) (y : BitVec n) : popcount (x ++ y) = popcount y + popcount x := by
  have hlow : (List.range n).countP (x ++ y).getLsbD = popcount y :=
    List.countP_congr fun i hi => by simp [BitVec.getLsbD_append, List.mem_range.mp hi]
  have hhigh : (List.range m).countP ((x ++ y).getLsbD ∘ (n + ·)) = popcount x :=
    List.countP_congr fun i _ => by simp [BitVec.getLsbD_append]
  have hrange : List.range (m + n) = List.range n ++ (List.range m).map (n + ·) := by
    rw [Nat.add_comm, List.range_add]
  rw [popcount, hrange, List.countP_append, List.countP_map, hlow, hhigh]

/-- Parity is additive over a concatenation. -/
theorem odd_append {m n : Nat} (x : BitVec m) (y : BitVec n) : odd (x ++ y) = (odd x ^^ odd y) := by
  rw [odd, popcount_append, Nat.add_mod, odd, odd]
  rcases Nat.mod_two_eq_zero_or_one (popcount x) with hx | hx <;>
    rcases Nat.mod_two_eq_zero_or_one (popcount y) with hy | hy <;> simp [hx, hy]

@[simp] theorem odd_ofBool (b : Bool) : odd (BitVec.ofBool b) = b := by
  cases b <;> rfl

theorem ofBool_eq_one_iff (b : Bool) : BitVec.ofBool b = 1 ↔ b = true := by
  cases b <;> decide

theorem ofBool_eq_zero_iff (b : Bool) : BitVec.ofBool b = 0 ↔ b = false := by
  cases b <;> decide

/-- The error pattern of one flipped bit. -/
theorem popcount_one_shiftLeft {n i : Nat} (h : i < n) : popcount (1#n <<< i) = 1 := by
  have hbit : (List.range n).countP (1#n <<< i).getLsbD = (List.range n).count i :=
    List.countP_congr fun k hk => by
      have hk : k < n := List.mem_range.mp hk
      simp [hk]
      omega
  rw [popcount, hbit, List.count_eq_one_of_mem List.nodup_range (List.mem_range.mpr h)]

theorem odd_one_shiftLeft {n i : Nat} (h : i < n) : odd (1#n <<< i) = true := by
  rw [odd, popcount_one_shiftLeft h]
  rfl

end Sys2Proof

namespace Sys2Proof.Machine

/-! ### The parity word (41_parity.md R80, R81) -/

/-- R80: a word is its parity bit and its payload. -/
theorem ofBool_append_parDec (w : Byte) : BitVec.ofBool (w.getLsbD 7) ++ parDec w = w :=
  BitVec.eq_of_getLsbD_eq fun i hi => by
    simp only [BitVec.getLsbD_append, parDec, BitVec.getLsbD_extractLsb']
    split
    · simp_all
    · obtain rfl : i = 7 := by omega
      simp

/-- The parity of a word is that of its parity bit and its payload. -/
theorem odd_eq_getLsbD_xor_odd_parDec (w : Byte) : odd w = (w.getLsbD 7 ^^ odd (parDec w)) := by
  conv_lhs => rw [← ofBool_append_parDec w, odd_append, odd_ofBool]

/-- R83: the parity bit is not looked at. -/
@[simp] theorem parDec_xor_parityBit (w : Byte) : parDec (w ^^^ 0x80) = parDec w := by
  have hmask : (0x80 : Byte).extractLsb' 0 7 = 0#7 := by decide
  rw [parDec, BitVec.extractLsb'_xor, hmask, BitVec.xor_zero, parDec]

/-- R85 item 1. -/
@[simp] theorem parDec_parEnc (v : Payload) : parDec (parEnc v) = v :=
  extractLsb'_append_low _ v

theorem getLsbD_parEnc_seven (v : Payload) : (parEnc v).getLsbD 7 = !odd v := by
  rw [parEnc, parTable, BitVec.getLsbD_append]
  simp

/-- R82: the encoded word has odd weight. -/
@[simp] theorem odd_parEnc (v : Payload) : odd (parEnc v) = true := by
  rw [odd_eq_getLsbD_xor_odd_parDec, getLsbD_parEnc_seven, parDec_parEnc, Bool.not_xor_self]

/-- R84: the check compares the parity bit with the payload's. -/
theorem parChk_eq_ofBool_bne (w : Byte) : parChk w = BitVec.ofBool (w.getLsbD 7 != !odd (parDec w)) := by
  have hbit : w.extractLsb' 7 1 = BitVec.ofBool (w.getLsbD 7) := by
    conv_lhs => rw [← ofBool_append_parDec w, extractLsb'_append_high]
  have hbne (a b : Bool) : (BitVec.ofBool a != BitVec.ofBool b) = (a != b) := by
    cases a <;> cases b <;> rfl
  rw [parChk, hbit, parTable, hbne, parDec]

theorem parChk_eq_one_iff_parityBit_ne (w : Byte) : parChk w = 1 ↔ w.getLsbD 7 ≠ !odd (parDec w) := by
  rw [parChk_eq_ofBool_bne, ofBool_eq_one_iff, bne_iff_ne]

/-- R84: so it is one less the parity of the word. -/
theorem parChk_eq_ofBool_not_odd (w : Byte) : parChk w = BitVec.ofBool (!odd w) := by
  rw [parChk_eq_ofBool_bne, odd_eq_getLsbD_xor_odd_parDec]
  cases w.getLsbD 7 <;> simp

theorem parChk_eq_one_iff (w : Byte) : parChk w = 1 ↔ odd w = false := by
  rw [parChk_eq_ofBool_not_odd, ofBool_eq_one_iff, Bool.not_eq_true']

theorem parChk_eq_zero_iff (w : Byte) : parChk w = 0 ↔ odd w = true := by
  rw [parChk_eq_ofBool_not_odd, ofBool_eq_zero_iff, Bool.not_eq_false']

/-- A word of odd weight has the parity bit that belongs to its payload, so encoding the payload gives it back. -/
theorem parEnc_parDec_of_odd {w : Byte} (h : odd w = true) : parEnc (parDec w) = w := by
  have hbit : w.getLsbD 7 = !odd (parDec w) := by
    rwa [odd_eq_getLsbD_xor_odd_parDec, Bool.xor_iff_ne, ← Bool.eq_not] at h
  rw [parEnc, parTable, ← hbit, ofBool_append_parDec]

/-- A word of even weight has the other one. -/
theorem parEnc_parDec_of_even {w : Byte} (h : odd w = false) : parEnc (parDec w) = w ^^^ 0x80 := by
  have hmask : odd (0x80 : Byte) = true := by decide
  have hodd : odd (w ^^^ 0x80) = true := by rw [odd_xor, h, hmask]; rfl
  rw [← parDec_xor_parityBit, parEnc_parDec_of_odd hodd]

theorem parEnc_parDec_eq_self_iff (w : Byte) : parEnc (parDec w) = w ↔ odd w = true :=
  ⟨fun h => h ▸ odd_parEnc (parDec w), parEnc_parDec_of_odd⟩

/-- R85 item 4, by its own words (assumption 16): an error pattern is detected when its weight is odd. -/
theorem parChk_parEnc_xor (v : Payload) (e : Byte) : parChk (parEnc v ^^^ e) = BitVec.ofBool (odd e) := by
  simp [parChk_eq_ofBool_not_odd]

/-- R85 item 3. -/
theorem parChk_flipBit_parEnc (v : Payload) {i : Nat} (h : i < 8) : parChk (flipBit (parEnc v) i) = 1 := by
  rw [flipBit, parChk_parEnc_xor, odd_one_shiftLeft h]
  rfl

theorem parEnc_injective : Function.Injective parEnc :=
  Function.LeftInverse.injective parDec_parEnc

/-- R85 item 6: the image of PAR.ENC. -/
theorem odd_eq_true_iff_exists_parEnc (w : Byte) : odd w = true ↔ ∃ v, parEnc v = w := by
  constructor
  · intro h
    exact ⟨parDec w, parEnc_parDec_of_odd h⟩
  · rintro ⟨v, rfl⟩
    exact odd_parEnc v

end Sys2Proof.Machine

section

open Sys2Proof Sys2Proof.Machine

/-- Settles O12: the word answered is `parEnc` of the payload, with the payload below its parity bit (`parDec_parEnc`,
`getLsbD_parEnc_seven`) and of odd weight (`odd_parEnc`). -/
theorem parEncAnswersTheOddParityWord : Obligations.ParEncAnswersTheOddParityWord := by
  refine ⟨fun s v => ⟨parEnc v, exec_eq (.parEnc v) s, parDec_parEnc v, getLsbD_parEnc_seven v, odd_parEnc v⟩,
    fun u => rfl, fun a => ?_, ?_⟩
  · simp [decode, operandSlice]
  · decide

/-- Settles O13: the payload answered is `parDec` of the word, which does not depend on bit 7
(`parDec_xor_parityBit`). -/
theorem parDecAnswersTheLowSevenBits : Obligations.ParDecAnswersTheLowSevenBits := by
  refine ⟨fun s w => ⟨parDec w, exec_eq (.parDec w) s, ?_, ?_⟩, fun u => rfl, fun a => ?_, ?_⟩
  · simp [parDec]
  · simp only [exec_eq, unitOutput, parDec_xor_parityBit]
  · simp [decode, operandSlice]
  · decide

/-- Settles O14: the bit answered is `parChk` of the word, read in R84's two ways (`parChk_eq_one_iff_parityBit_ne`,
`parChk_eq_one_iff`). -/
theorem parChkAnswersWhetherTheWeightIsEven : Obligations.ParChkAnswersWhetherTheWeightIsEven := by
  refine ⟨fun s w => ⟨parChk w, exec_eq (.parChk w) s, parChk_eq_one_iff_parityBit_ne w, parChk_eq_one_iff w⟩,
    fun u => rfl, fun a => ?_, ?_⟩
  · simp [decode, operandSlice]
  · decide

/-- Settles O15: PAR.CHK reads the parity of the word (`parChk_eq_ofBool_not_odd`), which is additive over an error
pattern, and the words of odd weight are those that encoding their payload gives back (`parEnc_parDec_eq_self_iff`). -/
theorem parityLaws : Obligations.ParityLaws := by
  refine ⟨parDec_parEnc, fun v => ?_, fun v i => parChk_flipBit_parEnc v, parChk_parEnc_xor,
    fun w => ⟨?_, fun h => ?_⟩, fun _ _ h => parEnc_injective h, odd_eq_true_iff_exists_parEnc⟩
  · rw [parChk_eq_zero_iff, odd_parEnc]
  · rw [parEnc_parDec_eq_self_iff, parChk_eq_zero_iff]
  · exact parEnc_parDec_of_even ((parChk_eq_one_iff w).mp h)

end

namespace Sys2Proof

/-! ### Spheres: words at a given distance (00_scope.md R9) -/

/-- The distance an error pattern moves a word. -/
theorem hd_xor_left {n : Nat} (x e : BitVec n) : hd (x ^^^ e) x = popcount e := by
  rw [hd, xor_xor_cancel_comm]

theorem hd_flipBit_left {n i : Nat} (x : BitVec n) (h : i < n) : hd (flipBit x i) x = 1 := by
  rw [flipBit, hd_xor_left, popcount_one_shiftLeft h]

/-- Only the patterns of one flipped bit have weight 1. -/
theorem exists_eq_one_shiftLeft_of_popcount_eq_one {n : Nat} {v : BitVec n} (h : popcount v = 1) :
    ∃ i, i < n ∧ v = 1#n <<< i := by
  obtain ⟨i, hi⟩ := List.length_eq_one_iff.mp (List.countP_eq_length_filter.symm.trans h)
  have hbit (k : Nat) : k < n ∧ v.getLsbD k = true ↔ k = i := by
    rw [← List.mem_range, ← List.mem_filter, hi, List.mem_singleton]
  have hin : i < n := ((hbit i).mpr rfl).1
  refine ⟨i, hin, BitVec.eq_of_getLsbD_eq fun k hk => ?_⟩
  rw [Bool.eq_iff_iff, ← and_iff_right (a := k < n) (b := v.getLsbD k = true) hk, hbit]
  simp [hk]
  omega

/-- A word within distance 1 is the word itself or has one bit of it flipped. -/
theorem hd_le_one_iff {n : Nat} (w x : BitVec n) : hd w x ≤ 1 ↔ w = x ∨ ∃ i, i < n ∧ w = flipBit x i := by
  constructor
  · intro h
    rcases Nat.le_one_iff_eq_zero_or_eq_one.mp h with h0 | h1
    · exact .inl ((hd_eq_zero_iff w x).mp h0)
    · obtain ⟨i, hi, he⟩ := exists_eq_one_shiftLeft_of_popcount_eq_one h1
      refine .inr ⟨i, hi, ?_⟩
      rw [flipBit, ← he, xor_xor_cancel_comm_assoc]
  · rintro (rfl | ⟨i, hi, rfl⟩)
    · simp
    · exact (hd_flipBit_left x hi).le

/-! ### Counting words (00_scope.md R9) -/

theorem card_byte : Fintype.card Byte = 256 := FinEnum.card_eq_fintypeCard.symm

/-- Flipping one bit is a bijection between the words of even and of odd weight, so half of the 256 are of each kind. -/
theorem card_even_and_odd_bytes :
    (Finset.univ.filter fun w : Byte => odd w = false).card = 128 ∧
      (Finset.univ.filter fun w : Byte => odd w = true).card = 128 := by
  have hone : odd 1#8 = true := by decide
  have hequal : (Finset.univ.filter fun w : Byte => odd w = false).card =
      (Finset.univ.filter fun w : Byte => odd w = true).card :=
    Finset.card_nbij' (· ^^^ 1#8) (· ^^^ 1#8) (fun w => by simp [hone]) (fun w => by simp [hone])
      (fun w _ => xor_cancel_right w _) (fun w _ => xor_cancel_right w _)
  have htotal := Finset.card_filter_add_card_filter_not (s := Finset.univ) fun w : Byte => odd w = true
  simp only [Bool.not_eq_true, Finset.card_univ, card_byte] at htotal
  omega

/-- A count over the 256 numbers of words is the size of a set of words. -/
theorem countP_ofNat_eq_card (p : Byte → Bool) {P : Byte → Prop} [DecidablePred P] (hp : ∀ w, p w = true ↔ P w) :
    ((List.range 256).countP fun k => p (BitVec.ofNat 8 k)) = (Finset.univ.filter P).card := by
  have hrange : ((List.range 256).countP fun k => p (BitVec.ofNat 8 k)) =
      ((Finset.range 256).filter fun k => P (BitVec.ofNat 8 k)).card := by
    simp only [List.countP_eq_length_filter, Finset.card_def, Finset.filter_val, Finset.range_val, Multiset.range,
      Multiset.filter_coe, Multiset.coe_card, ← hp, Bool.decide_eq_true]
  have hword (w : Byte) : BitVec.ofNat 8 w.toNat = w := by simp
  rw [hrange]
  refine Finset.card_nbij' (BitVec.ofNat 8) BitVec.toNat (fun k hk => ?_) (fun w hw => ?_) (fun k hk => ?_)
    fun w _ => hword w
  · exact (Finset.mem_filter_univ _).mpr (Finset.mem_filter.mp hk).2
  · refine Finset.mem_filter.mpr ⟨Finset.mem_range.mpr w.isLt, ?_⟩
    rw [hword]
    exact (Finset.mem_filter_univ w).mp hw
  · exact (BitVec.toNat_ofNat k 8).trans (Nat.mod_eq_of_lt (Finset.mem_range.mp (Finset.mem_filter.mp hk).1))

/-- Nine words are within distance 1 of a word: the word, and each with one bit of it flipped. -/
theorem card_hd_le_one (x : Byte) : (Finset.univ.filter fun w : Byte => hd w x ≤ 1).card = 9 := by
  have hpatterns : (Finset.univ.filter fun e : Byte => popcount e ≤ 1).card = 9 := by decide +kernel
  rw [← hpatterns]
  refine Finset.card_nbij' (· ^^^ x) (· ^^^ x) (fun w hw => ?_) (fun e he => ?_)
    (fun w _ => xor_cancel_right w x) (fun e _ => xor_cancel_right e x)
  · exact (Finset.mem_filter_univ _).mpr ((Finset.mem_filter_univ w).mp hw)
  · refine (Finset.mem_filter_univ _).mpr ?_
    rw [hd, xor_cancel_right]
    exact (Finset.mem_filter_univ e).mp he

end Sys2Proof

namespace Sys2Proof.Machine

/-! ### Code-words, near words and classes, for every table (42_hamming84.md R97, R100) -/

theorem isCodeword_eq_false_iff (T : H84Table) (w : Byte) : isCodeword T w = false ↔ ∀ n, T.entry n ≠ w := by
  rw [← Bool.not_eq_true, isCodeword_eq_true_iff, not_exists]

theorem near_eq_nil_iff (T : H84Table) (w : Byte) : near T w = [] ↔ ∀ n, 2 ≤ hd w (T.entry n) := by
  simp [List.eq_nil_iff_forall_not_mem, Nat.succ_le_iff]

theorem classify_eq_corrected_iff (T : H84Table) (w : Byte) : classify T w = .corrected ↔ odd w = false := by
  rw [classify_eq]
  cases odd w <;> cases isCodeword T w <;> simp

theorem classify_eq_uncorrectable_iff (T : H84Table) (w : Byte) :
    classify T w = .uncorrectable ↔ odd w = true ∧ isCodeword T w = false := by
  rw [classify_eq]
  cases odd w <;> cases isCodeword T w <;> simp

/-- R100: the class is the two masks side by side, as they are never both 1. -/
theorem classBits_classify (T : H84Table) (w : Byte) : classBits (classify T w) = h84Unc T w ++ h84Cor w := by
  rw [classify_eq, h84Unc, h84Cor]
  cases odd w <;> cases isCodeword T w <;> rfl

/-! ### Distances to a SECDED table (42_hamming84.md R93, R94) -/

section Secded

variable {T : H84Table} (h : T.Secded)
include h

/-- Two code-words at distance 4 have no word within distance 1 of both. -/
theorem nibble_eq_of_hd_le_one {w : Byte} {m n : Nibble} (hm : hd w (T.entry m) ≤ 1) (hn : hd w (T.entry n) ≤ 1) :
    m = n := by
  by_contra hne
  have hdist := h.2 m n hne
  have htri := hd_triangle (T.entry m) w (T.entry n)
  rw [hd_comm (T.entry m) w] at htri
  omega

/-- Every code-word has odd weight, so a word's weight decides the parity of its distance to all of them. -/
theorem hd_entry_mod_two (w : Byte) (n : Nibble) : hd w (T.entry n) % 2 = 1 ↔ odd w = false := by
  have hodd := (odd_eq_true_iff _).mp (h.1 n)
  rw [hd_mod_two, odd_eq_false_iff]
  omega

theorem odd_of_isCodeword {w : Byte} (hw : isCodeword T w = true) : odd w = true := by
  obtain ⟨n, rfl⟩ := (isCodeword_eq_true_iff T w).mp hw
  exact h.1 n

theorem flipBit_entry_injective :
    Function.Injective fun p : Nibble × Fin 8 => flipBit (T.entry p.1) p.2 := by
  have hshift : Function.Injective fun i : Fin 8 => 1#8 <<< i.val := by decide
  rintro ⟨m, i⟩ ⟨n, j⟩ (heq : flipBit (T.entry m) i = flipBit (T.entry n) j)
  obtain rfl : m = n := nibble_eq_of_hd_le_one h (hd_flipBit_left _ i.isLt).le (heq ▸ (hd_flipBit_left _ j.isLt).le)
  have hij : i = j := hshift ((BitVec.xor_right_inj _).mp heq)
  rw [hij]

/-- R94: the sixteen spheres of eight words are disjoint and of even weight, so they cover all 128 such words. -/
theorem exists_hd_eq_one_of_even {w : Byte} (hw : odd w = false) : ∃ n, hd w (T.entry n) = 1 := by
  have hmaps : ∀ p ∈ (Finset.univ : Finset (Nibble × Fin 8)),
      flipBit (T.entry p.1) p.2 ∈ Finset.univ.filter fun w : Byte => odd w = false := by
    rintro ⟨n, i⟩ -
    rw [Finset.mem_filter_univ, ← hd_entry_mod_two h _ n, hd_flipBit_left _ i.isLt]
  have hcard : (Finset.univ : Finset (Nibble × Fin 8)).card = 128 := rfl
  obtain ⟨⟨n, i⟩, -, rfl⟩ := Finset.surjOn_of_injOn_of_card_le _ hmaps (flipBit_entry_injective h).injOn
    (by rw [hcard, card_even_and_odd_bytes.1]) (Finset.mem_coe.mpr ((Finset.mem_filter_univ w).mpr hw))
  exact ⟨n, hd_flipBit_left _ i.isLt⟩

/-- R94: the even words are those at distance 1 from one and only one code-word. -/
theorem existsUnique_hd_eq_one_iff (w : Byte) : (∃! n, hd w (T.entry n) = 1) ↔ odd w = false := by
  constructor
  · rintro ⟨n, hn, -⟩
    rw [← hd_entry_mod_two h w n, hn]
  · intro hw
    obtain ⟨n, hn⟩ := exists_hd_eq_one_of_even h hw
    exact ⟨n, hn, fun m hm => nibble_eq_of_hd_le_one h (Nat.le_of_eq hm) (Nat.le_of_eq hn)⟩

/-- R94: the words far from every code-word are the other words of odd weight. -/
theorem forall_two_le_hd_iff (w : Byte) :
    (∀ n, 2 ≤ hd w (T.entry n)) ↔ odd w = true ∧ isCodeword T w = false := by
  constructor
  · intro hfar
    rw [← Bool.not_eq_false, isCodeword_eq_false_iff]
    constructor
    · intro hw
      obtain ⟨n, hn⟩ := exists_hd_eq_one_of_even h hw
      have hfar' := hfar n
      omega
    · rintro n rfl
      have hfar' := hfar n
      rw [hd_self] at hfar'
      omega
  · rintro ⟨hodd, hcode⟩ n
    have hparity : hd w (T.entry n) % 2 ≠ 1 := by rw [ne_eq, hd_entry_mod_two h, hodd]; decide
    have hzero : hd w (T.entry n) ≠ 0 := by
      rw [ne_eq, hd_eq_zero_iff]
      exact fun heq => (isCodeword_eq_false_iff T w).mp hcode n heq.symm
    omega

/-- R94: no word is farther than 2 from the code, since one of its neighbours is even. -/
theorem exists_hd_le_two (w : Byte) : ∃ n, hd w (T.entry n) ≤ 2 := by
  cases hw : odd w with
  | false =>
    obtain ⟨n, hn⟩ := exists_hd_eq_one_of_even h hw
    exact ⟨n, by omega⟩
  | true =>
    have heven : odd (flipBit w 0) = false := by
      rw [flipBit, odd_xor, hw, odd_one_shiftLeft (by decide), Bool.xor_self]
    obtain ⟨n, hn⟩ := exists_hd_eq_one_of_even h heven
    have htri := hd_triangle w (flipBit w 0) (T.entry n)
    rw [hd_comm w (flipBit w 0), hd_flipBit_left w (by decide), hn] at htri
    exact ⟨n, htri⟩

theorem card_codewords : (Finset.univ.filter fun w => isCodeword T w = true).card = 16 := by
  have himage : (Finset.univ.filter fun w => isCodeword T w = true) = Finset.univ.image T.entry := by
    ext w
    simp [isCodeword_eq_true_iff]
  rw [himage, Finset.card_image_of_injective _ (entry_injective_of_secded h)]
  rfl

/-- R94: the 128 words of odd weight, less the code-words. -/
theorem card_odd_not_codeword :
    (Finset.univ.filter fun w => odd w = true ∧ isCodeword T w = false).card = 112 := by
  have hsplit : (Finset.univ.filter fun w : Byte => odd w = true) =
      (Finset.univ.filter fun w => isCodeword T w = true) ∪
        Finset.univ.filter fun w => odd w = true ∧ isCodeword T w = false := by
    ext w
    cases hw : isCodeword T w with
    | false => simp [hw]
    | true => simp [hw, odd_of_isCodeword h hw]
  have hdisjoint : Disjoint (Finset.univ.filter fun w => isCodeword T w = true)
      (Finset.univ.filter fun w => odd w = true ∧ isCodeword T w = false) :=
    Finset.disjoint_filter.mpr fun w _ hcode hother => Bool.false_ne_true (hother.2.symm.trans hcode)
  have hcard := card_even_and_odd_bytes.2
  rw [hsplit, Finset.card_union_of_disjoint hdisjoint, card_codewords h] at hcard
  exact Nat.add_left_cancel (n := 16) hcard

/-! ### What the decoder and the classifier answer over a SECDED table (R97 to R101) -/

/-- R98, first case. -/
theorem h84DecTable_of_hd_le_one {w : Byte} {n : Nibble} (d : Nibble) (hn : hd w (T.entry n) ≤ 1) :
    h84DecTable T d w = n :=
  h84DecTable_of_near_iff T d n w fun _ => ⟨fun hm => nibble_eq_of_hd_le_one h hm hn, fun hm => hm ▸ hn⟩

theorem classify_eq_valid_iff (w : Byte) : classify T w = .valid ↔ ∃ n, T.entry n = w := by
  rw [← isCodeword_eq_true_iff, classify_eq]
  constructor
  · cases odd w <;> cases isCodeword T w <;> simp
  · intro hw
    simp [hw, odd_of_isCodeword h hw]

theorem classify_eq_uncorrectable_iff_far (w : Byte) :
    classify T w = .uncorrectable ↔ ∀ n, 2 ≤ hd w (T.entry n) := by
  rw [classify_eq_uncorrectable_iff, forall_two_le_hd_iff h]

/-- R101: the word the decoder answers tells whether it was near a code-word. -/
theorem classify_ne_uncorrectable_iff (d : Nibble) (w : Byte) :
    classify T w ≠ .uncorrectable ↔ hd w (T.entry (h84DecTable T d w)) ≤ 1 := by
  rw [ne_eq, classify_eq_uncorrectable_iff_far h]
  constructor
  · intro hnear
    push Not at hnear
    obtain ⟨n, hn⟩ := hnear
    have hn' : hd w (T.entry n) ≤ 1 := Nat.le_of_lt_succ hn
    rwa [h84DecTable_of_hd_le_one h d hn']
  · intro hnear hfar
    exact Nat.not_succ_le_self 1 ((hfar _).trans hnear)

/-- R98, second case. -/
theorem h84DecTable_of_uncorrectable {w : Byte} (d : Nibble) (hw : classify T w = .uncorrectable) :
    h84DecTable T d w = d :=
  h84DecTable_of_far T d w ((classify_eq_uncorrectable_iff_far h w).mp hw)

theorem near_eq_singleton_iff (w : Byte) (n : Nibble) : near T w = [n] ↔ hd w (T.entry n) ≤ 1 := by
  constructor
  · intro hnear
    rw [← mem_near, hnear]
    exact List.mem_singleton_self n
  · intro hn
    refine List.perm_singleton.mp
      ((List.perm_ext_iff_of_nodup (near_nodup T w) (List.nodup_singleton n)).mpr fun m => ?_)
    rw [mem_near, List.mem_singleton]
    exact ⟨fun hm => nibble_eq_of_hd_le_one h hm hn, fun hm => hm ▸ hn⟩

theorem length_near_eq_one_iff (w : Byte) : (near T w).length = 1 ↔ ¬classify T w = .uncorrectable := by
  simp only [List.length_eq_one_iff, near_eq_singleton_iff h, classify_eq_uncorrectable_iff_far h, not_forall,
    Nat.not_le, Nat.lt_succ_iff]

/-- R98, from the answer to the word. -/
theorem h84DecTable_eq_iff (d n : Nibble) (w : Byte) :
    h84DecTable T d w = n ↔ hd w (T.entry n) ≤ 1 ∨ n = d ∧ classify T w = .uncorrectable := by
  constructor
  · rintro rfl
    rw [← classify_ne_uncorrectable_iff h]
    by_cases hw : classify T w = .uncorrectable
    · exact .inr ⟨h84DecTable_of_uncorrectable h d hw, hw⟩
    · exact .inl hw
  · rintro (hn | ⟨rfl, hw⟩)
    · exact h84DecTable_of_hd_le_one h d hn
    · exact h84DecTable_of_uncorrectable h n hw

/-! ### Code-words with bits flipped (42_hamming84.md R103) -/

theorem h84DecTable_entry (d n : Nibble) : h84DecTable T d (T.entry n) = n :=
  h84DecTable_of_hd_le_one h d (by simp)

theorem entry_h84DecTable_eq_self_iff (d : Nibble) (w : Byte) :
    T.entry (h84DecTable T d w) = w ↔ classify T w = .valid := by
  rw [classify_eq_valid_iff h]
  constructor
  · exact fun hw => ⟨_, hw⟩
  · rintro ⟨n, rfl⟩
    rw [h84DecTable_entry h]

theorem odd_entry_xor (n : Nibble) (e : Byte) : odd (T.entry n ^^^ e) = !odd e := by
  rw [odd_xor, h.1 n, Bool.true_xor]

/-- Two flipped bits leave the other code-words at distance 2 or more, since they were at 4 or more. -/
theorem classify_entry_xor_of_popcount_eq_two (n : Nibble) {e : Byte} (he : popcount e = 2) :
    classify T (T.entry n ^^^ e) = .uncorrectable := by
  refine (classify_eq_uncorrectable_iff_far h _).mpr fun m => ?_
  have hn : hd (T.entry n ^^^ e) (T.entry n) = 2 := (hd_xor_left _ e).trans he
  by_cases hmn : m = n
  · rw [hmn, hn]
  · have hdist := h.2 m n hmn
    have htri := hd_triangle (T.entry m) (T.entry n ^^^ e) (T.entry n)
    rw [hd_comm (T.entry m) (T.entry n ^^^ e), hn] at htri
    omega

/-- More than one flipped bit is never decoded right, unless by the sentinel. -/
theorem h84DecTable_entry_xor_ne (d n : Nibble) {e : Byte} (he : 1 < popcount e)
    (hclass : classify T (T.entry n ^^^ e) ≠ .uncorrectable) : h84DecTable T d (T.entry n ^^^ e) ≠ n := by
  intro hdec
  have hnear := (classify_ne_uncorrectable_iff h d _).mp hclass
  rw [hdec, hd_xor_left] at hnear
  omega

/-! ### How many words are of each kind (42_hamming84.md R94, R98, R99, R103) -/

theorem card_classify_eq_uncorrectable :
    (Finset.univ.filter fun w => classify T w = .uncorrectable).card = 112 := by
  simpa only [classify_eq_uncorrectable_iff] using card_odd_not_codeword h

/-- R99, R103 item 7: a nibble is decoded from the nine words near its code-word, the sentinel also from the 112
Uncorrectable ones. -/
theorem card_h84DecTable_eq (d n : Nibble) :
    (Finset.univ.filter fun w => h84DecTable T d w = n).card = if n = d then 121 else 9 := by
  simp only [h84DecTable_eq_iff h]
  by_cases hn : n = d
  · have hdisjoint : Disjoint (Finset.univ.filter fun w => hd w (T.entry n) ≤ 1)
        (Finset.univ.filter fun w => classify T w = .uncorrectable) :=
      Finset.disjoint_filter.mpr fun w _ hnear hw =>
        absurd ((classify_eq_uncorrectable_iff_far h w).mp hw n) (Nat.not_le_of_lt (Nat.lt_succ_of_le hnear))
    simp only [hn, true_and, if_true] at hdisjoint ⊢
    rw [Finset.filter_or, Finset.card_union_of_disjoint hdisjoint, card_hd_le_one, card_classify_eq_uncorrectable h]
  · simp only [hn, false_and, or_false, if_false, card_hd_le_one]

theorem card_classify_ne_uncorrectable :
    (Finset.univ.filter fun w => ¬classify T w = .uncorrectable).card = 144 := by
  have htotal := Finset.card_filter_add_card_filter_not (s := Finset.univ) fun w => classify T w = .uncorrectable
  rw [card_classify_eq_uncorrectable h, Finset.card_univ, card_byte] at htotal
  exact Nat.add_left_cancel (n := 112) htotal

/-- The patterns of weight `k` that lead from a code-word to a code-word stand for the code-words at distance `k`. -/
theorem card_classify_entry_xor_eq_valid (v : Nibble) (k : Nat) :
    (Finset.univ.filter fun e => popcount e = k ∧ classify T (T.entry v ^^^ e) = .valid).card =
      (Finset.univ.filter fun n => hd (T.entry v) (T.entry n) = k).card := by
  symm
  refine Finset.card_bij (fun n _ => T.entry v ^^^ T.entry n) (fun n hn => ?_) (fun m _ n _ hmn => ?_) fun e he => ?_
  · rw [Finset.mem_filter_univ] at hn ⊢
    refine ⟨hn, (classify_eq_valid_iff h _).mpr ⟨n, ?_⟩⟩
    rw [xor_cancel_left]
  · exact entry_injective_of_secded h ((BitVec.xor_right_inj _).mp hmn)
  · rw [Finset.mem_filter_univ, classify_eq_valid_iff h] at he
    obtain ⟨hweight, n, hn⟩ := he
    have he' : T.entry v ^^^ T.entry n = e := by rw [hn, xor_cancel_left]
    exact ⟨n, (Finset.mem_filter_univ n).mpr (by rw [hd, he', hweight]), he'⟩

/-- Four flipped bits keep the weight odd, so the 70 such patterns lead to another code-word or to an Uncorrectable
word. -/
theorem card_valid_add_card_uncorrectable_of_weight_four (v : Nibble) :
    (Finset.univ.filter fun e => popcount e = 4 ∧ classify T (T.entry v ^^^ e) = .valid).card +
      (Finset.univ.filter fun e => popcount e = 4 ∧ classify T (T.entry v ^^^ e) = .uncorrectable).card = 70 := by
  have hpatterns : (Finset.univ.filter fun e : Byte => popcount e = 4).card = 70 := by decide +kernel
  have hsplit := Finset.card_filter_add_card_filter_not (s := Finset.univ.filter fun e : Byte => popcount e = 4)
    fun e => classify T (T.entry v ^^^ e) = .valid
  have hclass {e : Byte} (he : popcount e = 4) :
      ¬classify T (T.entry v ^^^ e) = .valid ↔ classify T (T.entry v ^^^ e) = .uncorrectable := by
    have hne : classify T (T.entry v ^^^ e) ≠ .corrected := by
      rw [ne_eq, classify_eq_corrected_iff, odd_entry_xor h, odd, he]
      decide
    cases hc : classify T (T.entry v ^^^ e) with
    | valid => simp
    | corrected => exact absurd hc hne
    | uncorrectable => simp
  rw [hpatterns, Finset.filter_filter, Finset.filter_filter] at hsplit
  rw [← hsplit]
  exact congrArg _ (congrArg _ (Finset.filter_congr fun e _ => and_congr_right fun he => (hclass he).symm))

end Secded

/-! ### Building the decode table by assignments (45_tablegen.md R135) -/

/-- A list after assignments of a value at a position, in turn. -/
def assignAll {α : Type} (l : List (Nat × α)) (d : List α) : List α := l.foldl (fun d p => d.set p.1 p.2) d

@[simp] theorem length_assignAll {α : Type} (l : List (Nat × α)) (d : List α) : (assignAll l d).length = d.length := by
  induction l generalizing d with
  | nil => rfl
  | cons p l ih => exact (ih _).trans List.length_set

/-- A position to which only `v` is assigned holds `v` afterwards, if it did before or some assignment reaches it. -/
theorem getElem?_assignAll {α : Type} {l : List (Nat × α)} {d : List α} {k : Nat} {v : α} (hk : k < d.length)
    (honly : ∀ p ∈ l, p.1 = k → p.2 = v) (hsome : d[k]? = some v ∨ ∃ p ∈ l, p.1 = k) :
    (assignAll l d)[k]? = some v := by
  induction l generalizing d with
  | nil => exact hsome.resolve_right (by simp)
  | cons p l ih =>
    rw [List.forall_mem_cons] at honly
    obtain ⟨hp, hl⟩ := honly
    refine ih (d := d.set p.1 p.2) (by simpa using hk) hl ?_
    by_cases hpk : p.1 = k
    · left
      rw [hpk, List.getElem?_set_self hk, hp hpk]
    · rw [List.getElem?_set_ne hpk]
      simpa [hpk] using hsome

/-- The 144 assignments of R135: each nibble at its code-word and at the eight words one bit away. -/
def h84Assignments (T : H84Table) : List (Nat × Nibble) :=
  nibbles.flatMap fun n =>
    ((T.entry n).toNat, n) :: (List.range 8).map fun i => ((flipBit (T.entry n) i).toNat, n)

theorem h84DecBuilt_eq_assignAll (T : H84Table) (sentinel : Nibble) :
    h84DecBuilt T sentinel = assignAll (h84Assignments T) (List.replicate 256 sentinel) := by
  simp only [h84DecBuilt, assignAll, h84Assignments, List.foldl_flatMap, List.foldl_cons, List.foldl_map]

/-- A nibble is assigned at the words within distance 1 of its code-word. -/
theorem mem_h84Assignments (T : H84Table) (w : Byte) (n : Nibble) :
    (w.toNat, n) ∈ h84Assignments T ↔ hd w (T.entry n) ≤ 1 := by
  rw [hd_le_one_iff]
  constructor
  · intro hmem
    obtain ⟨m, -, hmem⟩ := List.mem_flatMap.mp hmem
    simp only [List.mem_cons, List.mem_map, List.mem_range, Prod.mk.injEq, BitVec.toNat_inj] at hmem
    rcases hmem with ⟨rfl, rfl⟩ | ⟨i, hi, rfl, rfl⟩
    · exact .inl rfl
    · exact .inr ⟨i, hi, rfl⟩
  · intro hnear
    refine List.mem_flatMap.mpr ⟨n, mem_nibbles n, ?_⟩
    rcases hnear with rfl | ⟨i, hi, rfl⟩
    · exact List.mem_cons_self
    · exact List.mem_cons_of_mem _ (List.mem_map.mpr ⟨i, List.mem_range.mpr hi, rfl⟩)

theorem length_h84DecBuilt (T : H84Table) (sentinel : Nibble) : (h84DecBuilt T sentinel).length = 256 := by
  rw [h84DecBuilt_eq_assignAll, length_assignAll, List.length_replicate]

/-- R135: what the construction holds at a word. -/
theorem getElem?_h84DecBuilt {T : H84Table} (h : T.Secded) (sentinel : Nibble) (w : Byte) :
    (h84DecBuilt T sentinel)[w.toNat]? = some (h84DecTable T sentinel w) := by
  rw [h84DecBuilt_eq_assignAll]
  refine getElem?_assignAll (by rw [List.length_replicate]; exact w.isLt) ?_ ?_
  · rintro ⟨_, n⟩ hmem rfl
    exact (h84DecTable_of_hd_le_one h sentinel ((mem_h84Assignments T w n).mp hmem)).symm
  · by_cases hw : classify T w = .uncorrectable
    · left
      rw [h84DecTable_of_uncorrectable h sentinel hw, List.getElem?_replicate, if_pos w.isLt]
    · right
      exact ⟨_, (mem_h84Assignments T w _).mpr ((classify_ne_uncorrectable_iff h sentinel w).mp hw), rfl⟩

/-! ### This hardware's table (R92; its values are assumption 9) -/

theorem entry_hw (n : Nibble) : Config.hw.h84EncTable.entry n = h84Equations n := by
  revert n
  decide

theorem hd_entry_hw {m n : Nibble} (hmn : m ≠ n) :
    hd (Config.hw.h84EncTable.entry m) (Config.hw.h84EncTable.entry n) = if m = n ^^^ 0xF then 8 else 4 := by
  revert m n
  decide +kernel

theorem good_hw : Config.hw.h84EncTable.Good := by
  refine ⟨rfl, by decide, by decide, fun m n hmn => ?_⟩
  rw [hd_entry_hw hmn]
  split <;> decide

theorem secded_hw : Config.hw.h84EncTable.Secded := good_hw.2.2

theorem h84Syn_hw_eq_uncorrectable_iff (w : Byte) :
    h84Syn Config.hw w = .uncorrectable ↔ ∀ n, 2 ≤ hd w (Config.hw.h84EncTable.entry n) :=
  classify_eq_uncorrectable_iff_far secded_hw w

/-- R94: the words far from the code lie midway between four code-words. -/
theorem length_filter_hd_eq_two_hw {w : Byte} (hodd : odd w = true)
    (hcode : isCodeword Config.hw.h84EncTable w = false) :
    (nibbles.filter fun n => hd w (Config.hw.h84EncTable.entry n) == 2).length = 4 := by
  revert w
  decide +kernel

/-- For each code-word there are fourteen at distance 4: all but itself and its complement (R93). -/
theorem card_hd_entry_eq_four_hw (v : Nibble) :
    (Finset.univ.filter fun n => hd (Config.hw.h84EncTable.entry v) (Config.hw.h84EncTable.entry n) = 4).card = 14 := by
  revert v
  decide +kernel

/-- R99: the code-word of 0xF and the eight words one bit away from it. -/
theorem hd_entry_fifteen_le_one_iff_hw (w : Byte) : hd w (Config.hw.h84EncTable.entry 0xF) ≤ 1 ↔
    w ∈ [0xEA, 0xEB, 0xE8, 0xEE, 0xE2, 0xFA, 0xCA, 0xAA, 0x6A] := by
  revert w
  decide +kernel

/-- R98: 80 words have the data bits of a near code-word, the error being none or in a parity bit. -/
theorem card_hd_entry_dataBits_le_one_hw :
    (Finset.univ.filter fun w => hd w (Config.hw.h84EncTable.entry (dataBits w)) ≤ 1).card = 80 := by
  decide +kernel

/-! ### The check sums (42_hamming84.md R102) -/

theorem h84ClassByChecks_eq_h84Syn (w : Byte) : h84ClassByChecks w = h84Syn Config.hw w := by
  revert w
  decide +kernel

/-- Flipping back the bit in error leads to the nibble of a code-word within distance 1. -/
theorem hd_entry_h84NibbleByChecks_le_one {w : Byte} (hw : h84Syn Config.hw w ≠ .uncorrectable) :
    hd w (Config.hw.h84EncTable.entry (h84NibbleByChecks 0xF w)) ≤ 1 := by
  revert w
  decide +kernel

/-- R98: the sentinel, where the overall check passes and another fails. -/
theorem h84NibbleByChecks_of_uncorrectable {w : Byte} (d : Nibble) (hw : h84ClassByChecks w = .uncorrectable) :
    h84NibbleByChecks d w = d := by
  simp only [h84ClassByChecks] at hw
  split at hw
  · cases hw
  · cases hw
  · simp_all only [h84NibbleByChecks]

end Sys2Proof.Machine

section

open Sys2Proof Sys2Proof.Machine

/-- Settles O18: the even words are covered by the spheres around the code-words (`existsUnique_hd_eq_one_iff`), so the
words far from the code are the odd ones that are no code-words (`forall_two_le_hd_iff`). -/
theorem everySecdedTablePartitionsTheWords : Obligations.EverySecdedTablePartitionsTheWords := by
  refine ⟨fun T h => ⟨fun w => odd_of_isCodeword h, fun w hw => ⟨?_, (existsUnique_hd_eq_one_iff h w).mpr hw⟩,
    fun w hodd hcode => (forall_two_le_hd_iff h w).mpr ⟨hodd, hcode⟩, card_codewords h, card_even_and_odd_bytes.1,
    card_odd_not_codeword h⟩, fun w => length_filter_hd_eq_two_hw, exists_hd_le_two secded_hw⟩
  rw [← Bool.not_eq_true]
  intro hcode
  exact Bool.false_ne_true (hw.symm.trans (odd_of_isCodeword h hcode))

/-- Settles O23: weight decides the parity of a word's distances (`existsUnique_hd_eq_one_iff`), and Uncorrectable is
far from every code-word (`classify_eq_uncorrectable_iff_far`). -/
theorem classesAgreeWithDistances : Obligations.ClassesAgreeWithDistances := by
  rintro T ⟨-, -, h⟩ w
  have hcorrected := classify_eq_corrected_iff T w
  have hfar := classify_eq_uncorrectable_iff_far h w
  refine ⟨?_, hcorrected.trans (existsUnique_hd_eq_one_iff h w).symm, hcorrected, classify_eq_uncorrectable_iff T w,
    hfar.trans (near_eq_nil_iff T w).symm, hfar, classify_ne_uncorrectable_iff h 0xF w⟩
  simp only [classify_eq_valid_iff h, hd_eq_zero_iff, eq_comm (a := w)]

/-- Settles O25: the weight of the error pattern gives the parity of the word (`odd_entry_xor`) and its distance to the
code-word sent, which the decoder answers only within distance 1 (`h84DecTable_entry_xor_ne`). -/
theorem singleErrorsCorrectedDoubleErrorsDetected : Obligations.SingleErrorsCorrectedDoubleErrorsDetected := by
  rintro C ⟨-, -, h⟩ hsentinel
  have hcorrected (w : Byte) : h84Syn C w = .corrected ↔ odd w = false := classify_eq_corrected_iff C.h84EncTable w
  have hodd (v : Nibble) (e : Byte) : odd (h84Enc C v ^^^ e) = !odd e := odd_entry_xor h v e
  have hwrong (v : Nibble) (e : Byte) (he : 1 < popcount e) (hclass : h84Syn C (h84Enc C v ^^^ e) ≠ .uncorrectable) :
      h84Dec C (h84Enc C v ^^^ e) ≠ v := h84DecTable_entry_xor_ne h _ v he hclass
  refine ⟨fun v => ⟨h84DecTable_entry h _ v, (classify_eq_valid_iff h _).mpr ⟨v, rfl⟩⟩, fun v i hi => ⟨?_, ?_⟩,
    fun v e he => ?_, entry_h84DecTable_eq_self_iff h _, fun v e he => ?_, fun v e he => ?_,
    fun _ _ heq => entry_injective_of_secded h heq, fun n => ⟨h84Enc C n, h84DecTable_entry h _ n⟩⟩
  · rw [hcorrected, flipBit, hodd, odd_one_shiftLeft hi, Bool.not_true]
  · exact h84DecTable_of_hd_le_one h _ (hd_flipBit_left _ hi).le
  · have huncorrectable := classify_entry_xor_of_popcount_eq_two h v he
    exact ⟨huncorrectable, (h84DecTable_of_uncorrectable h _ huncorrectable).trans hsentinel⟩
  · have hclass : h84Syn C (h84Enc C v ^^^ e) = .corrected := by
      rw [hcorrected, hodd, odd, he]
      rfl
    exact ⟨hclass, hwrong v e (by omega) (by simp [hclass])⟩
  · cases hclass : h84Syn C (h84Enc C v ^^^ e) with
    | valid => exact .inl ⟨rfl, hwrong v e (by omega) (by simp [hclass])⟩
    | corrected =>
      rw [hcorrected, hodd, odd, he] at hclass
      cases hclass
    | uncorrectable => exact .inr rfl

/-- Settles O39: a nibble is assigned at a word exactly when its code-word is near (`mem_h84Assignments`), and at most
one code-word is (`getElem?_h84DecBuilt`). -/
theorem builtDecodeTableIsTheOneRead : Obligations.BuiltDecodeTableIsTheOneRead :=
  fun T sentinel h => ⟨length_h84DecBuilt T sentinel, getElem?_h84DecBuilt h sentinel⟩

/-- Settles O16: sixteen entries, evaluated (`entry_hw`). -/
theorem encodeTableFollowsTheCheckEquations : Obligations.EncodeTableFollowsTheCheckEquations :=
  ⟨entry_hw, rfl⟩

/-- Settles O17, by the distances between the entries (`hd_entry_hw`). -/
theorem encodeTableIsAdmissible : Obligations.EncodeTableIsAdmissible :=
  ⟨good_hw, fun _ _ => hd_entry_hw⟩

/-- Settles O19: the word answered is `h84Enc` of the nibble; 0x00 and 0xFF have even weight, and no entry has. -/
theorem h84EncAnswersTheTableEntry : Obligations.H84EncAnswersTheTableEntry := by
  have hodd (n : Nibble) : odd (h84Enc Config.hw n) = true := secded_hw.1 n
  have hne (n : Nibble) {x : Byte} (hx : odd x = false) : h84Enc Config.hw n ≠ x :=
    ne_of_apply_ne odd (by rw [hodd, hx]; decide)
  refine ⟨fun s n => ⟨h84Enc Config.hw n, exec_eq (.h84Enc n) s, rfl, hodd n, hne n (by decide), hne n (by decide)⟩,
    fun u => rfl, fun a => ?_, rfl, rfl⟩
  simp [decode, operandSlice]

/-- Settles O20: an Uncorrectable word is far from every code-word (`h84Syn_hw_eq_uncorrectable_iff`), any other near
that of the nibble answered (`classify_ne_uncorrectable_iff`). -/
theorem h84DecAnswersTheNearestNibbleOrTheSentinel : Obligations.H84DecAnswersTheNearestNibbleOrTheSentinel := by
  refine ⟨fun s w => ⟨h84Dec Config.hw w, exec_eq (.h84Dec w) s, ?_⟩, fun u => rfl, fun a => ?_, ?_, ?_, ?_⟩
  · by_cases hw : h84Syn Config.hw w = .uncorrectable
    · exact .inr ⟨(h84Syn_hw_eq_uncorrectable_iff w).mp hw, h84DecTable_of_uncorrectable secded_hw 0xF hw⟩
    · refine .inl fun m => ⟨fun hm => (h84DecTable_of_hd_le_one secded_hw 0xF hm).symm, ?_⟩
      rintro rfl
      exact (classify_ne_uncorrectable_iff secded_hw 0xF w).mp hw
  · simp [decode, operandSlice]
  · refine (countP_ofNat_eq_card (fun w => (near Config.hw.h84EncTable w).length == 1) fun w => ?_).trans
      (card_classify_ne_uncorrectable secded_hw)
    rw [beq_iff_eq, length_near_eq_one_iff secded_hw]
  · refine (countP_ofNat_eq_card (fun w => near Config.hw.h84EncTable w == [dataBits w]) fun w => ?_).trans
      card_hd_entry_dataBits_le_one_hw
    rw [beq_iff_eq, near_eq_singleton_iff secded_hw]
  · decide

/-- Settles O21: 0xF is answered near its own code-word and as the sentinel (`h84DecTable_eq_iff`). -/
theorem sentinelDoesNotByItselfSignalAnError : Obligations.SentinelDoesNotByItselfSignalAnError := by
  refine ⟨fun w => ?_, fun w hw huncorrectable => ?_, ?_, ?_⟩
  · rw [← hd_entry_fifteen_le_one_iff_hw]
    exact (h84DecTable_eq_iff secded_hw 0xF 0xF w).trans (by simp [h84Syn])
  · have hnear := (hd_entry_fifteen_le_one_iff_hw w).mpr hw
    have hfar := (h84Syn_hw_eq_uncorrectable_iff w).mp huncorrectable 0xF
    omega
  · exact (countP_ofNat_eq_card (h84Syn Config.hw · == .uncorrectable) fun w => beq_iff_eq).trans
      (card_classify_eq_uncorrectable secded_hw)
  · exact (countP_ofNat_eq_card (h84Dec Config.hw · == 0xF) fun w => beq_iff_eq).trans
      (card_h84DecTable_eq secded_hw 0xF 0xF)

/-- Settles O22: the class answered is `classify` of the word, read by weight and membership
(`classify_eq_uncorrectable_iff`) and as the two masks (`classBits_classify`). -/
theorem h84SynAnswersTheClass : Obligations.H84SynAnswersTheClass := by
  refine ⟨fun s w => ⟨h84Syn Config.hw w, exec_eq (.h84Syn w) s, classify_eq_valid_iff secded_hw w,
    classify_eq_corrected_iff _ w, ?_, ?_, ?_⟩, rfl, rfl, rfl, fun u => rfl, fun a => ?_, ?_⟩
  · rw [← isCodeword_eq_false_iff]
    exact classify_eq_uncorrectable_iff _ w
  · exact classBits_classify _ w
  · cases h84Syn Config.hw w <;> decide
  · simp [decode, operandSlice]
  · decide

/-- Settles O24: the classes agree on every word, and the check sums lead to the nibble of a near code-word
(`hd_entry_h84NibbleByChecks_le_one`), of which there is one. -/
theorem checkSumsAgreeWithTheTables : Obligations.CheckSumsAgreeWithTheTables := by
  intro w
  have hclass := h84ClassByChecks_eq_h84Syn w
  refine ⟨hclass, ?_⟩
  by_cases hw : h84Syn Config.hw w = .uncorrectable
  · rw [h84NibbleByChecks_of_uncorrectable 0xF (hclass.trans hw)]
    exact (h84DecTable_of_uncorrectable secded_hw 0xF hw).symm
  · exact (h84DecTable_of_hd_le_one secded_hw 0xF (hd_entry_h84NibbleByChecks_le_one hw)).symm

/-- Settles O26: a pattern that leads to a code-word stands for one at distance 4 (`card_classify_entry_xor_eq_valid`),
the other patterns of weight 4 lead to Uncorrectable words, and `card_h84DecTable_eq` counts the words of a nibble. -/
theorem errorPatternCountsOfThisTable : Obligations.ErrorPatternCountsOfThisTable := by
  have hvalid (v : Nibble) := 
    (card_classify_entry_xor_eq_valid secded_hw v 4).trans (card_hd_entry_eq_four_hw v)
  refine ⟨rfl, by decide, by decide, by decide, by decide, fun v => ⟨?_, ?_⟩, fun n => ?_⟩
  · refine (countP_ofNat_eq_card (fun e => popcount e == 4 && h84Syn Config.hw (h84Enc Config.hw v ^^^ e) == .valid)
      fun e => ?_).trans (hvalid v)
    simp [h84Syn, h84Enc]
  · have h70 := card_valid_add_card_uncorrectable_of_weight_four secded_hw v
    rw [hvalid v] at h70
    refine (countP_ofNat_eq_card
      (fun e => popcount e == 4 && h84Syn Config.hw (h84Enc Config.hw v ^^^ e) == .uncorrectable)
      fun e => ?_).trans (Nat.add_left_cancel (n := 14) h70)
    simp [h84Syn, h84Enc]
  · exact (countP_ofNat_eq_card (h84Dec Config.hw · == n) fun w => beq_iff_eq).trans
      (card_h84DecTable_eq secded_hw 0xF n)

end

namespace Sys2Proof

/-! ### The nibbles of a byte and the halves of a pair (20_memory.md R45; 43_hamming168.md R110) -/

theorem highNibble_append_lowNibble (b : Byte) : highNibble b ++ lowNibble b = b :=
  (BitVec.extractLsb'_append_extractLsb'_eq_extractLsb' rfl).trans BitVec.extractLsb'_eq_self

@[simp] theorem lowNibble_append (hi lo : Nibble) : lowNibble (hi ++ lo) = lo := extractLsb'_append_low hi lo

@[simp] theorem highNibble_append (hi lo : Nibble) : highNibble (hi ++ lo) = hi := extractLsb'_append_high hi lo

namespace Machine

theorem mkPair_pairLo_pairHi (p : PairWord) : mkPair (pairLo p) (pairHi p) = p :=
  (BitVec.extractLsb'_append_extractLsb'_eq_extractLsb' rfl).trans BitVec.extractLsb'_eq_self

/-- An error pattern on a pair falls on its halves separately. -/
@[simp] theorem pairLo_xor (p e : PairWord) : pairLo (p ^^^ e) = pairLo p ^^^ pairLo e := BitVec.extractLsb'_xor

@[simp] theorem pairHi_xor (p e : PairWord) : pairHi (p ^^^ e) = pairHi p ^^^ pairHi e := BitVec.extractLsb'_xor

/-- A pair is its two halves. -/
def pairHalves : PairWord ≃ Byte × Byte where
  toFun p := (pairLo p, pairHi p)
  invFun x := mkPair x.1 x.2
  left_inv := mkPair_pairLo_pairHi
  right_inv x := by simp

theorem pair_eq_iff (p q : PairWord) : p = q ↔ pairLo p = pairLo q ∧ pairHi p = pairHi q := by
  rw [← pairHalves.apply_eq_iff_eq, pairHalves, Equiv.coe_fn_mk, Prod.mk.injEq]

theorem pair_eq_zero_iff (e : PairWord) : e = 0 ↔ pairLo e = 0 ∧ pairHi e = 0 :=
  pair_eq_iff e 0

/-- A condition on each half is met by as many pairs as the product of the numbers of words that meet it. -/
theorem card_pairs {R : PairWord → Prop} (P Q : Byte → Prop) [DecidablePred R] [DecidablePred P] [DecidablePred Q]
    (hR : ∀ p, R p ↔ P (pairLo p) ∧ Q (pairHi p)) :
    (Finset.univ.filter R).card = (Finset.univ.filter P).card * (Finset.univ.filter Q).card := by
  rw [← Finset.card_product]
  exact Finset.card_equiv pairHalves fun p => by simp [pairHalves, hR]

theorem card_pairWord : Fintype.card PairWord = 65536 := FinEnum.card_eq_fintypeCard.symm

/-! ### The worse of two classes (43_hamming168.md R113) -/

theorem combineClasses_eq_uncorrectable_iff (c d : WordClass) :
    combineClasses c d = .uncorrectable ↔ c = .uncorrectable ∨ d = .uncorrectable := by
  cases c <;> cases d <;> decide

theorem combineClasses_eq_valid_iff (c d : WordClass) :
    combineClasses c d = .valid ↔ c = .valid ∧ d = .valid := by
  cases c <;> cases d <;> decide

/-- Between Valid and Corrected, one Corrected half is enough (D9). -/
theorem combineClasses_valid_or_corrected (P Q : Prop) [Decidable P] [Decidable Q] :
    combineClasses (if P then .valid else .corrected) (if Q then .valid else .corrected) =
      if P ∧ Q then .valid else .corrected := by
  by_cases hP : P <;> by_cases hQ : Q <;> simp [hP, hQ, combineClasses]

/-- R113's bit equations. -/
theorem classBits_combineClasses (c d : WordClass) :
    let unc := (classBits c).getLsbD 1 || (classBits d).getLsbD 1
    let cor := !unc && ((classBits c).getLsbD 0 || (classBits d).getLsbD 0)
    classBits (combineClasses c d) = BitVec.ofBool unc ++ BitVec.ofBool cor := by
  cases c <;> cases d <;> decide

/-! ### The pair unit is the Hamming(8,4) units on the halves (43_hamming168.md R110 to R114) -/

theorem h168Enc_eq (C : Config) (b : Byte) : h168Enc C b = h84Enc C (highNibble b) ++ h84Enc C (lowNibble b) := rfl

theorem h168Dec_eq (C : Config) (p : PairWord) : h168Dec C p = h84Dec C (pairHi p) ++ h84Dec C (pairLo p) := rfl

theorem h168Syn_eq (C : Config) (p : PairWord) :
    h168Syn C p = combineClasses (h84Syn C (pairLo p)) (h84Syn C (pairHi p)) := rfl

@[simp] theorem pairLo_h168Enc (C : Config) (b : Byte) : pairLo (h168Enc C b) = h84Enc C (lowNibble b) :=
  pairLo_mkPair _ _

@[simp] theorem pairHi_h168Enc (C : Config) (b : Byte) : pairHi (h168Enc C b) = h84Enc C (highNibble b) :=
  pairHi_mkPair _ _

@[simp] theorem lowNibble_h168Dec (C : Config) (p : PairWord) : lowNibble (h168Dec C p) = h84Dec C (pairLo p) :=
  lowNibble_append _ _

@[simp] theorem highNibble_h168Dec (C : Config) (p : PairWord) : highNibble (h168Dec C p) = h84Dec C (pairHi p) :=
  highNibble_append _ _

theorem h168Syn_eq_uncorrectable_iff (C : Config) (p : PairWord) :
    h168Syn C p = .uncorrectable ↔ h84Syn C (pairLo p) = .uncorrectable ∨ h84Syn C (pairHi p) = .uncorrectable :=
  combineClasses_eq_uncorrectable_iff _ _

theorem h168Syn_eq_valid_iff (C : Config) (p : PairWord) :
    h168Syn C p = .valid ↔ h84Syn C (pairLo p) = .valid ∧ h84Syn C (pairHi p) = .valid :=
  combineClasses_eq_valid_iff _ _

/-- The image of H168.ENC, half by half. -/
theorem exists_h168Enc_eq_iff (C : Config) (p : PairWord) : (∃ b, h168Enc C b = p) ↔
    isCodeword C.h84EncTable (pairLo p) = true ∧ isCodeword C.h84EncTable (pairHi p) = true := by
  rw [isCodeword_eq_true_iff, isCodeword_eq_true_iff]
  constructor
  · rintro ⟨b, rfl⟩
    exact ⟨⟨lowNibble b, (pairLo_h168Enc C b).symm⟩, ⟨highNibble b, (pairHi_h168Enc C b).symm⟩⟩
  · rintro ⟨⟨lo, hlo⟩, ⟨hi, hhi⟩⟩
    exact ⟨hi ++ lo, (pair_eq_iff _ p).mpr (by simp [h84Enc, hlo, hhi])⟩

/-! ### Pairs over a SECDED table (43_hamming168.md R114) -/

/-- R103 items 1 and 2: no flipped bit, or one. -/
theorem classify_entry_xor_of_popcount_le_one {T : H84Table} (h : T.Secded) (n : Nibble) {e : Byte}
    (he : popcount e ≤ 1) : classify T (T.entry n ^^^ e) = if e = 0 then .valid else .corrected := by
  by_cases h0 : e = 0
  · rw [if_pos h0, classify_eq_valid_iff h, h0]
    exact ⟨n, BitVec.xor_zero.symm⟩
  · have h1 : popcount e = 1 := by
      have hne : popcount e ≠ 0 := mt (popcount_eq_zero_iff e).mp h0
      omega
    rw [if_neg h0, classify_eq_corrected_iff, odd_entry_xor h, odd, h1]
    rfl

theorem h84DecTable_entry_xor_of_popcount_le_one {T : H84Table} (h : T.Secded) (d n : Nibble) {e : Byte}
    (he : popcount e ≤ 1) : h84DecTable T d (T.entry n ^^^ e) = n :=
  h84DecTable_of_hd_le_one h d ((hd_xor_left _ e).trans_le he)

section Secded

variable {C : Config} (h : C.h84EncTable.Secded)
include h

/-- R114 items 1 and 2, the byte. -/
theorem h168Dec_h168Enc_xor (b : Byte) {e : PairWord} (hlo : popcount (pairLo e) ≤ 1) (hhi : popcount (pairHi e) ≤ 1) :
    h168Dec C (h168Enc C b ^^^ e) = b := by
  have hcorrected (n : Nibble) {e : Byte} (he : popcount e ≤ 1) : h84Dec C (h84Enc C n ^^^ e) = n :=
    h84DecTable_entry_xor_of_popcount_le_one h _ n he
  rw [h168Dec_eq, pairHi_xor, pairHi_h168Enc, pairLo_xor, pairLo_h168Enc, hcorrected _ hlo, hcorrected _ hhi,
    highNibble_append_lowNibble]

/-- R114 items 1 and 2, the class: Valid when no bit of either half is flipped. -/
theorem h168Syn_h168Enc_xor (b : Byte) {e : PairWord} (hlo : popcount (pairLo e) ≤ 1) (hhi : popcount (pairHi e) ≤ 1) :
    h168Syn C (h168Enc C b ^^^ e) = if e = 0 then .valid else .corrected := by
  have hclass (n : Nibble) {e : Byte} (he : popcount e ≤ 1) :
      h84Syn C (h84Enc C n ^^^ e) = if e = 0 then .valid else .corrected :=
    classify_entry_xor_of_popcount_le_one h n he
  rw [h168Syn_eq, pairHi_xor, pairHi_h168Enc, pairLo_xor, pairLo_h168Enc, hclass _ hlo, hclass _ hhi,
    combineClasses_valid_or_corrected]
  simp only [pair_eq_zero_iff e]

theorem card_h84Syn_eq_valid : (Finset.univ.filter fun w => h84Syn C w = .valid).card = 16 := by
  simpa only [h84Syn, classify_eq_valid_iff h, ← isCodeword_eq_true_iff] using card_codewords h

/-- Both halves a code-word: 16 times 16. -/
theorem card_h168Syn_eq_valid : (Finset.univ.filter fun p => h168Syn C p = .valid).card = 256 := by
  rw [card_pairs (h84Syn C · = .valid) (h84Syn C · = .valid) (h168Syn_eq_valid_iff C), card_h84Syn_eq_valid h]

/-- Neither half Uncorrectable: 144 times 144. -/
theorem card_h168Syn_ne_uncorrectable :
    (Finset.univ.filter fun p => ¬h168Syn C p = .uncorrectable).card = 20736 := by
  have hhalf : (Finset.univ.filter fun w => ¬h84Syn C w = .uncorrectable).card = 144 := card_classify_ne_uncorrectable h
  rw [card_pairs (¬h84Syn C · = .uncorrectable) (¬h84Syn C · = .uncorrectable)
    fun p => by rw [h168Syn_eq_uncorrectable_iff, not_or], hhalf]

/-- The other pairs. -/
theorem card_h168Syn_eq_uncorrectable : (Finset.univ.filter fun p => h168Syn C p = .uncorrectable).card = 44800 := by
  have htotal := Finset.card_filter_add_card_filter_not (s := Finset.univ) fun p => h168Syn C p = .uncorrectable
  rw [card_h168Syn_ne_uncorrectable h, Finset.card_univ, card_pairWord] at htotal
  omega

/-- The pairs that are not Uncorrectable, less the Valid ones. -/
theorem card_h168Syn_eq_corrected : (Finset.univ.filter fun p => h168Syn C p = .corrected).card = 20480 := by
  have hsplit := Finset.card_filter_add_card_filter_not
    (s := Finset.univ.filter fun p => ¬h168Syn C p = .uncorrectable) fun p => h168Syn C p = .valid
  have hvalid (c : WordClass) : ¬c = .uncorrectable ∧ c = .valid ↔ c = .valid := by cases c <;> simp
  have hcorrected (c : WordClass) : ¬c = .uncorrectable ∧ ¬c = .valid ↔ c = .corrected := by cases c <;> simp
  simp only [Finset.filter_filter, hvalid, hcorrected, card_h168Syn_eq_valid h,
    card_h168Syn_ne_uncorrectable h] at hsplit
  omega

end Secded

end Machine

end Sys2Proof

section

open Sys2Proof Sys2Proof.Machine

/-- Settles O30: an error pattern falls on the halves separately (`pairLo_xor`, `pairHi_xor`), and each half answers as
the Hamming(8,4) units do on a code-word with its bits flipped. -/
theorem pairErrorsCorrectedHalfByHalf : Obligations.PairErrorsCorrectedHalfByHalf := by
  rintro C ⟨-, -, h⟩ hsentinel
  have hdetected (n : Nibble) {e : Byte} (he : popcount e = 2) : h84Syn C (h84Enc C n ^^^ e) = .uncorrectable :=
    classify_entry_xor_of_popcount_eq_two h n he
  have hdec {w : Byte} (hw : h84Syn C w = .uncorrectable) : h84Dec C w = 0xF :=
    (h84DecTable_of_uncorrectable h _ hw).trans hsentinel
  refine ⟨fun b => ?_, fun b e hlo hhi => ⟨h168Dec_h168Enc_xor h b hlo hhi, h168Syn_h168Enc_xor h b hlo hhi⟩,
    fun b e he => ?_, fun b e he => ?_, h168Dec_eq C, h168Enc_eq C⟩
  · have hlo : popcount (pairLo 0) ≤ 1 := by decide
    have hhi : popcount (pairHi 0) ≤ 1 := by decide
    simpa using And.intro (h168Dec_h168Enc_xor h b hlo hhi) (h168Syn_h168Enc_xor h b hlo hhi)
  · have hlo : h84Syn C (pairLo (h168Enc C b ^^^ e)) = .uncorrectable := by
      rw [pairLo_xor, pairLo_h168Enc, hdetected _ he]
    exact ⟨(h168Syn_eq_uncorrectable_iff C _).mpr (.inl hlo), (lowNibble_h168Dec C _).trans (hdec hlo)⟩
  · have hhi : h84Syn C (pairHi (h168Enc C b ^^^ e)) = .uncorrectable := by
      rw [pairHi_xor, pairHi_h168Enc, hdetected _ he]
    exact ⟨(h168Syn_eq_uncorrectable_iff C _).mpr (.inr hhi), (highNibble_h168Dec C _).trans (hdec hhi)⟩

/-- Settles O31: pairs are counted by their halves (`card_pairs`), 16 of whose 256 words are Valid and 144 not
Uncorrectable. -/
theorem pairClassCounts : Obligations.PairClassCounts :=
  ⟨exists_h168Enc_eq_iff Config.hw, card_h168Syn_eq_valid secded_hw, card_h168Syn_eq_corrected secded_hw,
    card_h168Syn_eq_uncorrectable secded_hw⟩

/-- Settles O27: the pair answered is `h168Enc` of the byte, which is as wide as the response (`zext16_pair`). -/
theorem h168EncAnswersTheTwoCodewords : Obligations.H168EncAnswersTheTwoCodewords := by
  refine ⟨fun s b => ⟨h168Enc Config.hw b, ?_, pairLo_h168Enc _ b, pairHi_h168Enc _ b⟩, fun u => rfl, fun a => ?_, ?_⟩
  · rw [exec_eq, unitOutput, responseWord, zext16_pair, State.record]
  · simp [decode, operandSlice]
  · decide

/-- Settles O28: the byte answered is `h168Dec` of the pair, its nibbles those of the halves (`lowNibble_h168Dec`,
`highNibble_h168Dec`). -/
theorem h168DecAnswersTheTwoNibbles : Obligations.H168DecAnswersTheTwoNibbles := by
  refine ⟨fun s p => ⟨h168Dec Config.hw p, exec_eq (.h168Dec p) s, lowNibble_h168Dec _ p, highNibble_h168Dec _ p⟩,
    fun u => rfl, fun a => ?_, ?_⟩
  · simp [decode, operandSlice]
  · decide

/-- Settles O29: the class answered is that of the halves' classes combined (`h168Syn_eq`), by priority and by the bit
equations (`classBits_combineClasses`). -/
theorem h168SynAnswersTheWorseClass : Obligations.H168SynAnswersTheWorseClass := by
  refine ⟨fun s p => ⟨h168Syn Config.hw p, exec_eq (.h168Syn p) s, h168Syn_eq_uncorrectable_iff _ p,
    h168Syn_eq_valid_iff _ p, classBits_combineClasses _ _⟩, fun u => rfl, fun a => ?_, ?_⟩
  · simp [decode, operandSlice]
  · decide

end

namespace Sys2Proof

/-! ### The nibbles of a byte as numbers (44_bcd.md R120) -/

theorem toNat_lowNibble (b : Byte) : (lowNibble b).toNat = b.toNat % 16 := BitVec.extractLsb'_toNat 0 4 b

theorem toNat_highNibble (b : Byte) : (highNibble b).toNat = b.toNat / 16 := by
  have hb := b.isLt
  rw [highNibble, BitVec.extractLsb'_toNat, Nat.shiftRight_eq_div_pow]
  omega

theorem byte_eq_iff (b c : Byte) :
    b = c ↔ (highNibble b).toNat = (highNibble c).toNat ∧ (lowNibble b).toNat = (lowNibble c).toNat := by
  rw [← BitVec.toNat_inj, toNat_highNibble, toNat_highNibble, toNat_lowNibble, toNat_lowNibble]
  omega

/-- Any two digits below sixteen are the nibbles of a byte. -/
theorem exists_byte_of_nibbles {h l : Nat} (hh : h < 16) (hl : l < 16) :
    ∃ b : Byte, (highNibble b).toNat = h ∧ (lowNibble b).toNat = l :=
  ⟨BitVec.ofNat 4 h ++ BitVec.ofNat 4 l, by
    rw [highNibble_append, lowNibble_append, BitVec.toNat_ofNat, BitVec.toNat_ofNat]
    omega⟩

namespace Machine

/-! ### The integers of the BCD units (44_bcd.md R122, R123) -/

/-- R123: nine bits hold the decoder's integer, whatever the rest of the configuration. -/
theorem toInt_bcdDec_of_bias {C : Config} (h : C.bcdDecBias = 11) (w : Byte) :
    (bcdDec C w).toInt = (highNibble w).toNat * 10 + (lowNibble w).toNat - 11 := by
  have hint : bcdDecInt C w = bcdDecInt Config.hw w := by
    rw [bcdDecInt, h]
    rfl
  rw [bcdDec, hint]
  exact toInt_bcdDec w

theorem toInt_bcdDec_hw (w : Byte) :
    (bcdDec Config.hw w).toInt = (highNibble w).toNat * 10 + (lowNibble w).toNat - 11 :=
  toInt_bcdDec_of_bias rfl w

theorem toNat_bcdEnc (C : Config) (v : Payload) :
    (bcdEnc C v).toNat = (v.toNat / 10 * 16 + v.toNat % 10 + C.bcdEncBias) % 256 :=
  BitVec.toNat_ofNat _ 8

/-- R122: with the constant 17 nothing is lost by the cut to eight bits. -/
theorem toNat_bcdEnc_of_bias {C : Config} (h : C.bcdEncBias = 17) (v : Payload) :
    (bcdEnc C v).toNat = v.toNat / 10 * 16 + v.toNat % 10 + 17 := by
  have hv := v.isLt
  rw [toNat_bcdEnc, h]
  omega

/-- R122: the constant 17 offsets each digit by one, with no carry from the units into the tens. -/
theorem nibbles_bcdEnc {C : Config} (h : C.bcdEncBias = 17) (v : Payload) :
    (highNibble (bcdEnc C v)).toNat = v.toNat / 10 + 1 ∧ (lowNibble (bcdEnc C v)).toNat = v.toNat % 10 + 1 := by
  rw [toNat_highNibble, toNat_lowNibble, toNat_bcdEnc_of_bias h]
  omega

/-- The words BCD.ENC gives, by their digits. -/
theorem bcdEnc_hw_eq_iff (v : Payload) (w : Byte) : bcdEnc Config.hw v = w ↔
    (highNibble w).toNat = v.toNat / 10 + 1 ∧ (lowNibble w).toNat = v.toNat % 10 + 1 := by
  obtain ⟨hhigh, hlow⟩ := nibbles_bcdEnc (C := Config.hw) rfl v
  rw [byte_eq_iff, hhigh, hlow, eq_comm, eq_comm (b := (lowNibble w).toNat)]

/-! ### The laws of the BCD units (44_bcd.md R124) -/

/-- R124 items 1 and 2: the decoder's 11 is one ten and one unit, the two offsets of the encoder. -/
theorem toInt_bcdDec_bcdEnc {C : Config} (hdec : C.bcdDecBias = 11) (henc : C.bcdEncBias = 17) (v : Payload) :
    (bcdDec C (bcdEnc C v)).toInt = v.toNat := by
  obtain ⟨hhigh, hlow⟩ := nibbles_bcdEnc henc v
  rw [toInt_bcdDec_of_bias hdec, hhigh, hlow]
  omega

/-- R124 item 4. -/
theorem toNat_bcdEnc_lt {v v' : Payload} (h : v.toNat < v'.toNat) :
    (bcdEnc Config.hw v).toNat < (bcdEnc Config.hw v').toNat := by
  rw [toNat_bcdEnc_of_bias rfl, toNat_bcdEnc_of_bias rfl]
  omega

theorem bcdEnc_hw_injective : Function.Injective (bcdEnc Config.hw) := by
  have hround (v : Payload) : (bcdDec Config.hw (bcdEnc Config.hw v)).toInt = v.toNat := toInt_bcdDec_bcdEnc rfl rfl v
  intro v v' h
  refine BitVec.eq_of_toNat_eq (Int.ofNat_inj.mp ?_)
  rw [← hround v, h, hround v']

/-- A word whose nibbles are offset digits with a 7-bit value is the encoding of that value. -/
theorem exists_bcdEnc_eq_of_digits {w : Byte} (hhigh : 1 ≤ (highNibble w).toNat) (hlow : 1 ≤ (lowNibble w).toNat)
    (hlow' : (lowNibble w).toNat ≤ 10) (hvalue : (highNibble w).toNat * 10 + (lowNibble w).toNat ≤ 138) :
    ∃ v : Payload, v.toNat + 11 = (highNibble w).toNat * 10 + (lowNibble w).toNat ∧ bcdEnc Config.hw v = w := by
  obtain ⟨v, hv⟩ : ∃ v : Payload, v.toNat = (highNibble w).toNat * 10 + (lowNibble w).toNat - 11 :=
    ⟨BitVec.ofNat 7 _, (BitVec.toNat_ofNat _ 7).trans (Nat.mod_eq_of_lt (by omega))⟩
  refine ⟨v, by omega, (bcdEnc_hw_eq_iff v w).mpr ?_⟩
  omega

/-- R124 item 3. -/
theorem exists_bcdEnc_bcdDec_eq_self_iff (w : Byte) :
    (∃ v : Payload, (bcdDec Config.hw w).toInt = v.toNat ∧ bcdEnc Config.hw v = w) ↔
      1 ≤ (lowNibble w).toNat ∧ (lowNibble w).toNat ≤ 10 ∧ 1 ≤ (highNibble w).toNat ∧ (highNibble w).toNat ≤ 13 ∧
        (bcdDec Config.hw w).toInt ≤ 127 := by
  rw [toInt_bcdDec_hw]
  constructor
  · rintro ⟨v, -, henc⟩
    obtain ⟨hhigh, hlow⟩ := (bcdEnc_hw_eq_iff v w).mp henc
    have hv := v.isLt
    omega
  · rintro ⟨hlow, hlow', hhigh, -, hvalue⟩
    obtain ⟨v, hv, henc⟩ := exists_bcdEnc_eq_of_digits hhigh hlow hlow' (by omega)
    exact ⟨v, by omega, henc⟩

theorem bcdWellFormed_eq_true_iff (w : Byte) : bcdWellFormed w = true ↔
    1 ≤ (highNibble w).toNat ∧ (highNibble w).toNat ≤ 10 ∧ 1 ≤ (lowNibble w).toNat ∧ (lowNibble w).toNat ≤ 10 :=
  decide_eq_true_iff

/-- R120: the well-formed words are the encodings of the decimal values. -/
theorem bcdWellFormed_iff_exists_bcdEnc (w : Byte) :
    bcdWellFormed w = true ↔ ∃ v : Payload, v.toNat ≤ 99 ∧ bcdEnc Config.hw v = w := by
  rw [bcdWellFormed_eq_true_iff]
  constructor
  · rintro ⟨hhigh, hhigh', hlow, hlow'⟩
    obtain ⟨v, hv, henc⟩ := exists_bcdEnc_eq_of_digits hhigh hlow hlow' (by omega)
    exact ⟨v, by omega, henc⟩
  · rintro ⟨v, hv, henc⟩
    obtain ⟨hhigh, hlow⟩ := (bcdEnc_hw_eq_iff v w).mp henc
    omega

/-- R124 item 4: below 150 the nibbles can be the decimal digits of the sum, and above it the high nibble is fifteen. -/
theorem exists_toInt_bcdDec_eq_iff (r : Int) : (∃ w, (bcdDec Config.hw w).toInt = r) ↔ -11 ≤ r ∧ r ≤ 154 := by
  constructor
  · rintro ⟨w, rfl⟩
    rw [toInt_bcdDec]
    exact bcdDecInt_bounds w
  · rintro ⟨hlow, hhigh⟩
    obtain ⟨n, hn⟩ := Int.eq_ofNat_of_zero_le (a := r + 11) (by omega)
    obtain ⟨h, l, hh, hl, hsum⟩ : ∃ h l, h < 16 ∧ l < 16 ∧ h * 10 + l = n := by
      rcases lt_or_ge n 150 with hlt | hge
      · exact ⟨n / 10, n % 10, by omega, by omega, by omega⟩
      · exact ⟨15, n - 150, by omega, by omega, by omega⟩
    obtain ⟨w, hwh, hwl⟩ := exists_byte_of_nibbles hh hl
    refine ⟨w, ?_⟩
    rw [toInt_bcdDec_hw, hwh, hwl]
    omega

/-! ### Which words decode to a decimal value (44_bcd.md R123) -/

/-- R123 (i). -/
theorem toInt_bcdDec_neg_iff (w : Byte) : (bcdDec Config.hw w).toInt < 0 ↔ w.toNat ≤ 0x0A ∨ w = 0x10 := by
  have hsixteen : w = 0x10 ↔ w.toNat = 16 := BitVec.toNat_inj.symm
  rw [toInt_bcdDec_hw, toNat_highNibble, toNat_lowNibble, hsixteen]
  omega

/-- R123 (iii): whatever the low nibble, ten high nibbles bring the sum into the hundred values. -/
theorem card_bcdDec_decimal_of_lowNibble (l : Nibble) :
    (Finset.univ.filter fun w => (0 ≤ (bcdDec Config.hw w).toInt ∧ (bcdDec Config.hw w).toInt ≤ 99) ∧
      lowNibble w = l).card = 10 := by
  revert l
  decide +kernel

/-- R123 (iii): ten words for each of the sixteen low nibbles. -/
theorem card_bcdDec_decimal :
    (Finset.univ.filter fun w => 0 ≤ (bcdDec Config.hw w).toInt ∧ (bcdDec Config.hw w).toInt ≤ 99).card = 160 := by
  have hnibbles : Fintype.card Nibble = 16 := FinEnum.card_eq_fintypeCard.symm
  rw [Finset.card_eq_sum_card_fiberwise (f := lowNibble) (t := Finset.univ) fun w _ => Finset.mem_univ (lowNibble w)]
  simp only [Finset.filter_filter, card_bcdDec_decimal_of_lowNibble, Finset.sum_const, Finset.card_univ, hnibbles]
  rfl

/-- R120: the encoder is a bijection from the hundred decimal values. -/
theorem card_bcdWellFormed : (Finset.univ.filter fun w => bcdWellFormed w = true).card = 100 := by
  have hvalues : (Finset.univ.filter fun v : Payload => v.toNat ≤ 99).card = 100 := by decide +kernel
  have himage : (Finset.univ.filter fun w => bcdWellFormed w = true) =
      (Finset.univ.filter fun v : Payload => v.toNat ≤ 99).image (bcdEnc Config.hw) :=
    Finset.ext fun w => by
      simp only [Finset.mem_filter_univ, Finset.mem_image, bcdWellFormed_iff_exists_bcdEnc]
  rw [himage, Finset.card_image_of_injective _ bcdEnc_hw_injective, hvalues]

/-- R123 (iii): well-formed words decode to decimal values. -/
theorem bcdDec_decimal_of_bcdWellFormed {w : Byte} (h : bcdWellFormed w = true) :
    0 ≤ (bcdDec Config.hw w).toInt ∧ (bcdDec Config.hw w).toInt ≤ 99 := by
  obtain ⟨v, hv, rfl⟩ := (bcdWellFormed_iff_exists_bcdEnc w).mp h
  rw [toInt_bcdDec_bcdEnc rfl rfl]
  omega

/-- R123 (v): the low eight bits of a signed nine-bit value are it modulo 256. -/
theorem toNat_setWidth_eight (r : BitVec 9) : ((r.setWidth 8).toNat : Int) = r.toInt % 256 := by
  rw [BitVec.toNat_setWidth, BitVec.toInt_eq_toNat_cond]
  split <;> omega

end Machine

end Sys2Proof

section

open Sys2Proof Sys2Proof.Machine

/-- Settles O34, law by law: on the words whose nibbles are offset digits the two operations are inverse
(`nibbles_bcdEnc`, `exists_bcdEnc_eq_of_digits`). -/
theorem bcdLaws : Obligations.BcdLaws :=
  ⟨toInt_bcdDec_bcdEnc rfl rfl, exists_bcdEnc_bcdDec_eq_self_iff, bcdWellFormed_iff_exists_bcdEnc,
    fun _ _ => toNat_bcdEnc_lt, exists_toInt_bcdDec_eq_iff⟩

/-- Settles O35: the value 0 leaves the constants 17 and the printed 11, the two words that decode to 0, and 5 is the
first value that 11 carries into the high nibble. -/
theorem onlyBiasSeventeenRoundTrips : Obligations.OnlyBiasSeventeenRoundTrips := by
  intro C hdec hlt
  constructor
  · intro hround
    have hzero := hround 0#7 (by decide)
    have hfive := hround 5#7 (by decide)
    rw [toInt_bcdDec_of_bias hdec, toNat_highNibble, toNat_lowNibble, toNat_bcdEnc, BitVec.toNat_ofNat] at hzero hfive
    omega
  · intro henc v _
    exact toInt_bcdDec_bcdEnc hdec henc v

/-- Settles O32: the word answered is `bcdEnc` of the value, its nibbles the digits offset by one (`nibbles_bcdEnc`). -/
theorem bcdEncAnswersTheBiasedDigits : Obligations.BcdEncAnswersTheBiasedDigits := by
  refine ⟨fun s v => ⟨bcdEnc Config.hw v, exec_eq (.bcdEnc v) s, toNat_bcdEnc_of_bias rfl v,
    fun _ => nibbles_bcdEnc rfl v⟩, fun u => rfl, fun a => ?_, ?_⟩
  · simp [decode, operandSlice]
  · decide

/-- Settles O33: the value answered is `bcdDec` of the word, which holds the exact integer (`toInt_bcdDec_hw`); the
words with a decimal value are counted by low nibble, the well-formed ones by the value they encode. -/
theorem bcdDecAnswersTheExactInteger : Obligations.BcdDecAnswersTheExactInteger := by
  refine ⟨fun s w => ⟨bcdDec Config.hw w, exec_eq (.bcdDec w) s, ?_, toInt_bcdDec_neg_iff w, ?_, ?_,
    toNat_setWidth_eight _⟩, fun u => rfl, fun a => ?_, ?_, ?_, ?_⟩
  · rw [toInt_bcdDec_hw, toNat_highNibble, toNat_lowNibble]
    omega
  · exact ((exists_toInt_bcdDec_eq_iff _).mp ⟨w, rfl⟩).1
  · exact ((exists_toInt_bcdDec_eq_iff _).mp ⟨w, rfl⟩).2
  · simp [decode, operandSlice]
  · exact (countP_ofNat_eq_card
      (fun w => decide (0 ≤ (bcdDec Config.hw w).toInt ∧ (bcdDec Config.hw w).toInt ≤ 99))
      fun w => decide_eq_true_iff).trans card_bcdDec_decimal
  · refine (countP_ofNat_eq_card
      (fun w => bcdWellFormed w && decide (0 ≤ (bcdDec Config.hw w).toInt ∧ (bcdDec Config.hw w).toInt ≤ 99))
      fun w => ?_).trans card_bcdWellFormed
    rw [Bool.and_eq_true, decide_eq_true_iff, and_iff_left_iff_imp]
    exact bcdDec_decimal_of_bcdWellFormed
  · decide

end

namespace Sys2Proof.Machine

/-! ### Doubling from 1 (45_tablegen.md R131 to R133) -/

/-- A doubled sequence starting from 1 reads one less the parity of a word at the word. -/
theorem getElem?_tm_true_toNat {n : Nat} (w : BitVec n) : (tm n true)[w.toNat]? = some (!odd w) := by
  simp [getElem?_tm true w.isLt]

end Sys2Proof.Machine

section

open Sys2Proof Sys2Proof.Machine

/-- Settles O36: each doubling appends the complement at the indices whose added top bit is 1 (`length_tm`,
`getElem?_tm`). -/
theorem doublingGivesTheParityOfTheIndex : Obligations.DoublingGivesTheParityOfTheIndex :=
  fun n p0 => ⟨length_tm n p0, fun _ hi => getElem?_tm p0 hi⟩

/-- Settles O37: both masks are doubled from 1 (`getElem?_tm_true_toNat`), seven and eight times (`length_tm`); the
tables the units read are that closed form by definition. -/
theorem parityMasksAreTheDoubledSequences : Obligations.ParityMasksAreTheDoubledSequences :=
  ⟨rfl, length_tm 7 true, fun v => ⟨getElem?_tm_true_toNat v, rfl⟩,
    rfl, length_tm 8 true, fun w => ⟨getElem?_tm_true_toNat w, rfl⟩⟩

end

namespace Sys2Proof.Machine

/-! ### Interleaving pairs and pairing neighbours (20_memory.md R46; 46_batch.md R142, R143) -/

@[simp] theorem length_interleave (ps : List PairWord) : (interleave ps).length = 2 * ps.length := by
  induction ps with
  | nil => rfl
  | cons p ps ih =>
    simp only [interleave, List.length_cons, ih]
    omega

/-- The halves of pair `i` stand at `2i` and `2i + 1`, the low half first (D17). -/
theorem getElem?_interleave {ps : List PairWord} {i : Nat} {p : PairWord} (h : ps[i]? = some p) :
    (interleave ps)[2 * i]? = some (pairLo p) ∧ (interleave ps)[2 * i + 1]? = some (pairHi p) := by
  induction ps generalizing i with
  | nil => simp at h
  | cons q ps ih =>
    cases i with
    | zero =>
      obtain rfl : q = p := Option.some.inj h
      exact ⟨rfl, rfl⟩
    | succ i => exact ih (i := i) h

/-- Pairing the neighbours undoes the interleaving. -/
@[simp] theorem pairsOf_interleave (ps : List PairWord) : pairsOf (interleave ps) = ps := by
  induction ps with
  | nil => rfl
  | cons p ps ih => rw [interleave, pairsOf, mkPair_pairLo_pairHi, ih]

theorem interleave_append (ps qs : List PairWord) : interleave (ps ++ qs) = interleave ps ++ interleave qs := by
  induction ps with
  | nil => rfl
  | cons p ps ih => simp only [List.cons_append, interleave, ih]

/-- Past a whole number of pairs the pairing starts afresh. -/
theorem pairsOf_append {xs : List Byte} (h : xs.length % 2 = 0) (ys : List Byte) :
    pairsOf (xs ++ ys) = pairsOf xs ++ pairsOf ys := by
  fun_induction pairsOf xs with
  | case1 lo hi rest ih =>
    have hrest : rest.length % 2 = 0 := by
      simp only [List.length_cons] at h
      omega
    simp only [List.cons_append, pairsOf, ih hrest]
  | case2 w => simp at h
  | case3 => rfl

/-! ### The Hamming(16,8) sequence forms that cannot fail (46_batch.md R142 to R144) -/

/-- H168.ENC.SEQ interleaves the pairs of H168.ENC (R142). -/
theorem runSeq_h168Enc (bs : List Byte) :
    runSeq (.h168Enc bs) = .done (.words (interleave (bs.map (h168Enc Config.hw)))) := rfl

theorem runSeq_h168Dec_of_even {ws : List Byte} (h : ws.length % 2 = 0) :
    runSeq (.h168Dec ws) = .done (.words ((pairsOf ws).map (h168Dec Config.hw))) :=
  (runSeq_h168Dec ws).trans (checkedPairs_of_even h _)

theorem runSeq_h168Syn_of_even {ws : List Byte} (h : ws.length % 2 = 0) :
    runSeq (.h168Syn ws) = .done (.classes ((pairsOf ws).map (h168Syn Config.hw))) :=
  (runSeq_h168Syn ws).trans (checkedPairs_of_even h _)

/-- An interleaved sequence passes the length check, and its pairs are those interleaved. -/
theorem runSeq_h168Dec_interleave (ps : List PairWord) :
    runSeq (.h168Dec (interleave ps)) = .done (.words (ps.map (h168Dec Config.hw))) := by
  rw [runSeq_h168Dec_of_even (by simp), pairsOf_interleave]

theorem runSeq_h168Syn_interleave (ps : List PairWord) :
    runSeq (.h168Syn (interleave ps)) = .done (.classes (ps.map (h168Syn Config.hw))) := by
  rw [runSeq_h168Syn_of_even (by simp), pairsOf_interleave]

/-- R114 item 1 for the table of R92. -/
theorem h168Dec_h168Enc_hw (b : Byte) : h168Dec Config.hw (h168Enc Config.hw b) = b := by
  obtain ⟨hround, -⟩ := pairErrorsCorrectedHalfByHalf Config.hw good_hw rfl
  exact (hround b).1

theorem h168Syn_h168Enc_hw (b : Byte) : h168Syn Config.hw (h168Enc Config.hw b) = .valid := by
  obtain ⟨hround, -⟩ := pairErrorsCorrectedHalfByHalf Config.hw good_hw rfl
  exact (hround b).2

/-! ### The step of a sequence form (70_reset_and_hazards.md R175) -/

/-- The step of a sequence form moves the script on and records what the form returned, and changes nothing else
(assumption 7). -/
theorem step_sequence (s : State) (q : SeqOp) (rest : List Action) :
    step { s with script := .sequence q :: rest } =
      .next { s with script := rest, log := s.log ++ [.sequence q (runSeq q)] } :=
  (step_of_cons rfl).trans (perform_sequence q _)

end Sys2Proof.Machine

section

open Sys2Proof Sys2Proof.Machine

/-- Settles O41: pair `i` of the interleaved sequence is H168.ENC of byte `i` (`getElem?_interleave`), whose halves are
the code-words of its nibbles. -/
theorem sequenceEncodingInterleavesThePairs : Obligations.SequenceEncodingInterleavesThePairs := by
  intro bs
  refine ⟨_, runSeq_h168Enc bs, by simp, fun i b hb => ?_⟩
  have hpair : (bs.map (h168Enc Config.hw))[i]? = some (h168Enc Config.hw b) := by
    rw [List.getElem?_map, hb, Option.map_some]
  obtain ⟨hlo, hhi⟩ := getElem?_interleave hpair
  rw [pairLo_h168Enc] at hlo
  rw [pairHi_h168Enc] at hhi
  exact ⟨hlo, hhi⟩

/-- Settles O44: the pairs of the interleaved sequence are those encoded (`pairsOf_interleave`), and each decodes to its
byte and is Valid (R114 item 1). -/
theorem sequenceRoundTrip : Obligations.SequenceRoundTrip := by
  intro bs
  refine ⟨_, runSeq_h168Enc bs, ?_, ?_⟩
  · rw [runSeq_h168Dec_interleave, List.map_map]
    simp [Function.comp_def, h168Dec_h168Enc_hw]
  · rw [runSeq_h168Syn_interleave, List.map_map]
    simp [Function.comp_def, h168Syn_h168Enc_hw]

/-- Settles O45: a map of a concatenation is the concatenation of the maps, and so are the interleaving and, past an
even length, the pairing (`interleave_append`, `pairsOf_append`). -/
theorem sequenceElementsAreIndependent : Obligations.SequenceElementsAreIndependent := by
  refine ⟨fun xs ys => ⟨_, _, runSeq_h168Enc xs, runSeq_h168Enc ys, ?_⟩, fun xs ys hxs hys => ?_,
    fun xs ys => ⟨_, _, rfl, rfl, ?_⟩⟩
  · rw [runSeq_h168Enc, List.map_append, interleave_append]
  · have heven : (xs ++ ys).length % 2 = 0 := by
      rw [List.length_append]
      omega
    refine ⟨_, _, _, _, runSeq_h168Dec_of_even hxs, runSeq_h168Dec_of_even hys, ?_,
      runSeq_h168Syn_of_even hxs, runSeq_h168Syn_of_even hys, ?_⟩
    · rw [runSeq_h168Dec_of_even heven, pairsOf_append hxs, List.map_append]
    · rw [runSeq_h168Syn_of_even heven, pairsOf_append hxs, List.map_append]
  · rw [runSeq, List.map_append]

/-- Settles O40: the step records what the form returns (`step_sequence`), which for an element-wise form is the map of
its operation (R141). -/
theorem elementwiseFormsMapTheOperation : Obligations.ElementwiseFormsMapTheOperation :=
  fun s rest => ⟨fun xs => step_sequence s (.parEnc xs) rest, fun xs => step_sequence s (.parDec xs) rest,
    fun xs => step_sequence s (.parChk xs) rest, fun xs => step_sequence s (.h84Enc xs) rest,
    fun xs => step_sequence s (.h84Dec xs) rest, fun xs => step_sequence s (.h84Syn xs) rest,
    fun xs => step_sequence s (.bcdEnc xs) rest, fun xs => step_sequence s (.bcdDec xs) rest⟩

end

namespace Sys2Proof.Machine

/-! ### The one failure of the sequence forms (60_exceptions.md R153) -/

/-- A decoding form on an odd length fails the length check. -/
theorem runSeq_of_odd {q : SeqOp} {ws : List Byte} (hq : q = .h168Dec ws ∨ q = .h168Syn ws) (hodd : ws.length % 2 = 1) :
    runSeq q = .failed (.invalidInputLength ws.length) := by
  rcases hq with rfl | rfl
  · exact (runSeq_h168Dec ws).trans (checkedPairs_of_odd hodd _)
  · exact (runSeq_h168Syn ws).trans (checkedPairs_of_odd hodd _)

/-- The ill-formed forms are the two decoding ones on an odd length (R143, R144). -/
theorem seqOp_wf_eq_false_iff (q : SeqOp) :
    q.wf = false ↔ ∃ ws : List Byte, (q = .h168Dec ws ∨ q = .h168Syn ws) ∧ ws.length % 2 = 1 := by
  cases q <;> simp [SeqOp.wf]

/-- A well-formed form returns a result: past the length check, or without one. -/
theorem exists_runSeq_eq_done_of_wf {q : SeqOp} (h : q.wf = true) : ∃ r, runSeq q = .done r := by
  cases q with
  | h168Dec ws => exact ⟨_, runSeq_h168Dec_of_even (beq_iff_eq.mp h)⟩
  | h168Syn ws => exact ⟨_, runSeq_h168Syn_of_even (beq_iff_eq.mp h)⟩
  | _ => exact ⟨_, rfl⟩

/-- A form fails exactly when it is ill formed, with the length of its operand sequence. -/
theorem runSeq_eq_failed_iff (q : SeqOp) (f : Fault) : runSeq q = .failed f ↔
    ∃ ws : List Byte, (q = .h168Dec ws ∨ q = .h168Syn ws) ∧ ws.length % 2 = 1 ∧ f = .invalidInputLength ws.length := by
  constructor
  · intro hf
    cases hwf : q.wf with
    | true =>
      obtain ⟨r, hr⟩ := exists_runSeq_eq_done_of_wf hwf
      cases hr.symm.trans hf
    | false =>
      obtain ⟨ws, hq, hodd⟩ := (seqOp_wf_eq_false_iff q).mp hwf
      exact ⟨ws, hq, hodd, SeqOutcome.failed.inj (hf.symm.trans (runSeq_of_odd hq hodd))⟩
  · rintro ⟨ws, hq, hodd, rfl⟩
    exact runSeq_of_odd hq hodd

theorem failureCode_runSeq (q : SeqOp) : failureCode (runSeq q) = if q.wf then 0 else 1 := by
  cases hwf : q.wf with
  | true =>
    obtain ⟨r, hr⟩ := exists_runSeq_eq_done_of_wf hwf
    rw [hr]
    rfl
  | false =>
    obtain ⟨ws, hq, hodd⟩ := (seqOp_wf_eq_false_iff q).mp hwf
    rw [runSeq_of_odd hq hodd]
    rfl

/-! ### A host that keeps its contract (R160) -/

/-- A run stays good when what it records is no failure. -/
theorem good_record {s : State} {e : Exchange} (hs : s.Good) (he : e.good = true) : (s.record e).Good := by
  intro x hx
  rcases List.mem_append.mp hx with hx | hx
  · exact hs x hx
  · obtain rfl := List.mem_singleton.mp hx
    exact he

/-- An action that keeps the contract is answered, leaves a defined op on `req` and records no failure. -/
theorem perform_of_keepsContract {a : Action} {s : State} (ha : a.keepsContract = true) (hreq : reqWf s.req = true)
    (hgood : s.Good) : ∃ t, perform a s = .next t ∧ reqWf t.req = true ∧ t.Good := by
  cases a with
  | request w =>
    obtain ⟨i, hi⟩ := decode_of_reqWf ha
    exact ⟨_, perform_request_of_ok hi s, ha, good_record (s := s.setReq w) hgood rfl⟩
  | driveReq w => exact ⟨_, perform_driveReq w s, ha, hgood⟩
  | readRsp =>
    obtain ⟨i, hi⟩ := decode_of_reqWf hreq
    exact ⟨_, perform_readRsp_of_ok hi, hreq, good_record hgood rfl⟩
  | present i => exact ⟨_, perform_present i s, hreq, good_record (s := s.drive (inputOf i)) hgood rfl⟩
  | drive d => exact ⟨_, perform_drive d s, hreq, hgood⟩
  | read o => exact ⟨_, perform_read o s, hreq, good_record hgood rfl⟩
  | sequence q =>
    obtain ⟨r, hr⟩ := exists_runSeq_eq_done_of_wf ha
    have hsafe : (Exchange.sequence q (runSeq q)).good = true := by
      rw [hr]
      rfl
    exact ⟨_, perform_sequence q s, hreq, good_record hgood hsafe⟩

/-- Under the contract a step is answered, and the contract and the good run are kept. -/
theorem step_of_keepsContract {s : State} (hkeeps : s.KeepsContract) (hgood : s.Good) :
    ∃ t, step s = .next t ∧ t.KeepsContract ∧ t.Good ∧ t.script = s.script.tail := by
  obtain ⟨hreq, hscript⟩ := hkeeps
  cases hs : s.script with
  | nil => exact ⟨s, step_of_nil hs, ⟨hreq, hscript⟩, hgood, hs⟩
  | cons a rest =>
    rw [hs, List.forall_mem_cons] at hscript
    obtain ⟨ha, hrest⟩ := hscript
    obtain ⟨t, hperform, htreq, htgood⟩ := perform_of_keepsContract (s := s.setScript rest) ha hreq hgood
    have htscript : t.script = rest := (perform_frame hperform).1
    exact ⟨t, (step_of_cons hs).trans hperform, ⟨htreq, htscript ▸ hrest⟩, htgood, htscript⟩

/-- So it is with a run of any number of steps. -/
theorem run_of_keepsContract (k : Nat) {s : State} (hkeeps : s.KeepsContract) (hgood : s.Good) :
    ∃ t, Sys2Proof.core.run k s = .next t ∧ t.KeepsContract ∧ t.Good ∧ t.script = s.script.drop k := by
  induction k generalizing s with
  | zero => exact ⟨s, run_zero s, hkeeps, hgood, rfl⟩
  | succ k ih =>
    obtain ⟨u, hstep, hukeeps, hugood, huscript⟩ := step_of_keepsContract hkeeps hgood
    obtain ⟨t, hrun, htkeeps, htgood, htscript⟩ := ih hukeeps hugood
    refine ⟨t, (run_succ_of_next hstep k).trans hrun, htkeeps, htgood, ?_⟩
    rw [htscript, huscript, List.drop_tail]

end Sys2Proof.Machine

section

open Sys2Proof Sys2Proof.Machine

/-- Settles O55, by induction on the steps (`run_of_keepsContract`): under the contract no reserved op stands on `req`
or is asked and every length check passes, so each step is answered and keeps the invariant
(`step_of_keepsContract`). -/
theorem hostThatKeepsTheContractIsAnswered : Obligations.HostThatKeepsTheContractIsAnswered :=
  fun _ k hkeeps hgood => run_of_keepsContract k hkeeps hgood

/-- Settles O43: the failing forms are the ill-formed ones (`runSeq_eq_failed_iff`, `failureCode_runSeq`), and the step
records what a form returns, failure or not (`step_sequence`). -/
theorem invalidInputLengthOnOddLengthsOnly : Obligations.InvalidInputLengthOnOddLengthsOnly :=
  ⟨runSeq_eq_failed_iff, failureCode_runSeq, step_sequence⟩

end

section

open Sys2Proof Sys2Proof.Machine

/-- Settles O50: a step that answers leaves the log or appends one exchange (`step_log`), and with no script it answers
the state itself (`step_of_nil`). -/
theorem responsesAreNeverTakenBack : Obligations.ResponsesAreNeverTakenBack := by
  refine ⟨fun s t h => ?_, fun _ => step_of_nil⟩
  rcases step_log h with hsame | ⟨e, -, hgrown⟩
  · exact .inl hsame
  · exact .inr ⟨e, hgrown⟩

end
